-- ==== Sys2Proof/Word.lean ====
section
/-! DEFINITION. The bit-vector types of the machine: a 32-bit word of two 16-bit halves (00_scope.md R5, R7). A byte exists only in the model's representation of memory (20_memory.md R56, log 1). -/

namespace Sys2Proof

/-- One cell of the representation of memory; the hardware itself has no bytes (R56). -/
abbrev Byte := BitVec 8

/-- A 16-bit half: an index register, `P`, `RTC`, an I/O address (R7, R24, R25, R32). -/
abbrev Half := BitVec 16

/-- A 32-bit word: `A`, a memory cell, an instruction (R5, R23, R50, R80). -/
abbrev Word := BitVec 32

end Sys2Proof
end

