-- ==== Sys2Proof/Syntax.lean ====
section
/-! DEFINITION. The instructions as syntax: one constructor of `Instr` per row of spec/opcode_table.json, carrying exactly the
fields that row's instruction uses (30_encoding.md R80 to R93). -/

namespace Sys2Proof

/-- The two memory banks, "derived once during decode" (R50, R81). -/
inductive Bank where
  | one
  | two
deriving DecidableEq, Repr

/-- The bank's number, 1 or 2 (R50). -/
def Bank.num : Bank → Nat
  | .one => 1
  | .two => 2

/-- `index_select` X (R86): no indexing, or `ix[0]`, `ix[1]`, `ix[2]`. `ix[3]` cannot be selected (R24). -/
inductive IndexSelect where
  | noIndex
  | ix0
  | ix1
  | ix2
deriving DecidableEq, Repr

/-- The four index registers, as targets T of LIX and CIX (R24, R84). -/
inductive IxReg where
  | ix0
  | ix1
  | ix2
  | ix3
deriving DecidableEq, Repr

/-- The address part of an instruction: B, X and ADDR (R80). `addr` is 16 bits wide because the effective-address adder takes
any 16-bit input (R92, C2); a decoded word supplies only 0..32767, which is what `wellFormed` checks (DESIGN CHOICE, log 12). -/
structure MemRef where
  bank : Bank
  x : IndexSelect
  addr : Half
deriving DecidableEq, Repr

/-- The instructions (R85). -/
inductive Instr where
  /-- Clear and add (R141). -/
  | cad (m : MemRef)
  /-- Add (R142). -/
  | add (m : MemRef)
  /-- Subtract (R143). -/
  | dim (m : MemRef)
  /-- Fractional multiply (R144). -/
  | tmu (m : MemRef)
  /-- Store left half (R161). -/
  | lst (m : MemRef)
  /-- Store both halves (R162). -/
  | fst (m : MemRef)
  /-- Store right half (R163). -/
  | sto (m : MemRef)
  /-- Shift left one (R171). -/
  | shl
  /-- Shift right one (R172). -/
  | shr
  /-- Unconditional branch (R181). -/
  | bpx (m : MemRef)
  /-- Branch if the accumulator is negative (R182). -/
  | blm (m : MemRef)
  /-- Branch if the accumulator is zero (R184). -/
  | bze (m : MemRef)
  /-- Subroutine call (R186). -/
  | jsb (m : MemRef)
  /-- Subroutine return (R190). -/
  | bir (m : MemRef)
  /-- I/O read; the bank is ignored (R200). -/
  | ior (x : IndexSelect) (addr : Half)
  /-- I/O write; the bank is ignored (R202). -/
  | iow (x : IndexSelect) (addr : Half)
  /-- Load index register `t`, from memory or, with `imm`, from the effective address (R210). -/
  | lix (imm : Bool) (t : IxReg) (m : MemRef)
  /-- Clear index register `t` (R212). -/
  | cix (t : IxReg)
  /-- Halt (R220). -/
  | halt
  /-- The Reset transition (R222). -/
  | reset
deriving DecidableEq, Repr

/-- The operation of an instruction, without its operands: the mnemonics of R85. -/
inductive Op where
  | cad | add | dim | tmu
  | lst | fst | sto
  | shl | shr
  | bpx | blm | bze | jsb | bir
  | ior | iow
  | lix | cix
  | halt | reset
deriving DecidableEq, Repr

/-- Every operation, in the order of R85. -/
def Op.all : List Op :=
  [.cad, .add, .dim, .tmu, .lst, .fst, .sto, .shl, .shr, .bpx, .blm, .bze, .jsb, .bir, .ior, .iow, .lix, .cix, .halt, .reset]

/-- The operation an instruction stands for. -/
def Instr.op : Instr → Op
  | .cad _ => .cad
  | .add _ => .add
  | .dim _ => .dim
  | .tmu _ => .tmu
  | .lst _ => .lst
  | .fst _ => .fst
  | .sto _ => .sto
  | .shl => .shl
  | .shr => .shr
  | .bpx _ => .bpx
  | .blm _ => .blm
  | .bze _ => .bze
  | .jsb _ => .jsb
  | .bir _ => .bir
  | .ior _ _ => .ior
  | .iow _ _ => .iow
  | .lix _ _ _ => .lix
  | .cix _ => .cix
  | .halt => .halt
  | .reset => .reset

end Sys2Proof
end

