-- ==== Sys2Proof/Config.lean ====
section
/-! DEFINITION. The implementation parameters of 00_scope.md R5 that are not fixed by the source, as plain data, and the free
values: opaque constants, of which nothing can be proved. The spec's defaults stand in Decode.lean (the encoding) and in
Machine/Params.lean. -/

namespace Sys2Proof

/-- FRAC_ROUND (R5, R13): how a non-integer scaled value becomes an integer. R13 admits every function that is the identity on
integers and monotone. `truncate` is the spec's default (D12), `floor` the alternative R144 names, and `other k` any further
rule: it rounds up from an open threshold between each integer and the next (log 6). -/
inductive FracRound where
  | truncate
  | floor
  | other (rule : Nat)
deriving DecidableEq, Repr

/-- SHIFT_SCOPE (R5, R170). -/
inductive ShiftScope where
  | perHalf
  | wholeWord
deriving DecidableEq, Repr

/-- SHR_FILL (R5, R170). -/
inductive ShrFill where
  | arithmetic
  | logical
deriving DecidableEq, Repr

/-- ENC_LAYOUT (R5, R80): the lowest bit of each field. The widths are those of R80. -/
structure EncLayout where
  bLo : Nat
  classLo : Nat
  opLo : Nat
  iLo : Nat
  tLo : Nat
  xLo : Nat
  sLo : Nat
  addrLo : Nat
deriving DecidableEq, Repr

/-- OPCODE_MAP (R5, R85): rows of an operation, its CLASS and its OP. -/
abbrev OpcodeMap := List (Op × BitVec 3 × BitVec 4)

/-- The two parameters a decoder is built with. -/
structure Encoding where
  /-- ENC_LAYOUT (R80, D1). -/
  layout : EncLayout
  /-- OPCODE_MAP (R85, D2). -/
  opcodeMap : OpcodeMap
deriving DecidableEq, Repr

/-- The parameters a CORE instance is built with (R5). Fixed for the machine: no step and no host action changes them. -/
structure Config where
  /-- COUNTER_BITS (R30, R31, D27). -/
  counterBits : Nat
  /-- ENC_LAYOUT and OPCODE_MAP (R80, R85, D1, D2, U17). -/
  encoding : Encoding
  /-- FRAC_ROUND (R13, D12). -/
  fracRound : FracRound
  /-- SHIFT_SCOPE (R170, D14). -/
  shiftScope : ShiftScope
  /-- SHR_FILL (R170, D14). -/
  shrFill : ShrFill
  /-- CYCLES_PER_INSTR (R31, D27). -/
  cyclesPerInstr : Nat
  /-- RTC_IO_ADDR (R240, D20). -/
  rtcIoAddr : Half
  /-- DEVICE_ADDRS (R240, D22). -/
  deviceAddrs : List Half
deriving DecidableEq, Repr

/-- RTC_IO_ADDR is OPEN: "no value is chosen" (R5, D20). Free value, log 3. -/
opaque Config.openRtcIoAddr : Half

/-- DEVICE_ADDRS is OPEN (R5, D22). Free value, log 3. -/
opaque Config.openDeviceAddrs : List Half

/-- The value a device supplies to the `n`-th device read: a draw (R243, U8). Free value, log 4. -/
opaque Config.deviceDraw : Nat → Word

/-- `roundThreshold k n`: where rule `other k` of FRAC_ROUND starts to round up between `n` and `n + 1`. Free value, log 6. -/
opaque Config.roundThreshold : Nat → Int → ℚ

end Sys2Proof
end

