-- ==== Sys2Proof/Machine/Lanes.lean ====
section
/-! DEFINITION. The word helpers of 00_scope.md: halves, split and join (R7, R8, R10, R11), fractions (R12, R13), the lane
operator (R14), and the one-place shifts under every value of their parameters (R170 to R172). -/

namespace Sys2Proof.Machine

/-- `L(w) = w[31:16]` (R7). -/
def leftHalf (w : Word) : Half := w.extractLsb' 16 16

/-- `R(w) = w[15:0]` (R7). -/
def rightHalf (w : Word) : Half := w.extractLsb' 0 16

/-- `s16(h)`, the two's-complement reading (R8). -/
def s16 (h : Half) : Int := h.toInt

/-- `u16(h)` (R8). -/
def u16 (h : Half) : Int := h.toNat

/-- `trunc16(n) = n mod 65536` (R8). -/
def trunc16 (n : Int) : Half := BitVec.ofInt 16 n

/-- `trunc32(n) = n mod 2^32` (R8). -/
def trunc32 (n : Int) : Word := BitVec.ofInt 32 n

/-- `split` (R10). -/
def split (w : Word) : Int × Int := (s16 (leftHalf w), s16 (rightHalf w))

/-- `join` (R11): "masks each half to 16 bits before packing". -/
def join (l r : Int) : Word := trunc16 l ++ trunc16 r

/-- The lane operator (R14). -/
def lanes (op : Int → Int → Int) (a m : Word) : Word :=
  join (op (s16 (leftHalf a)) (s16 (leftHalf m))) (op (s16 (rightHalf a)) (s16 (rightHalf m)))

/-- The integer that FRAC_ROUND makes of `num / den`, for `den > 0` (R13). Every rule is the identity on integers and monotone:
`other k` rounds up from its threshold on, between one integer and the next (log 6). -/
def roundQuotient (rule : FracRound) (num den : Int) : Int :=
  match rule with
  | .truncate => num.tdiv den
  | .floor => num / den
  | .other k =>
    if num % den = 0 then num / den
    else if (num : ℚ) < Config.roundThreshold k (num / den) * den then num / den
    else num / den + 1

/-- The clamp of R13 to the signed 16-bit bounds. -/
def clamp16 (n : Int) : Int := if n > 32767 then 32767 else if n < -32768 then -32768 else n

/-- `to_fraction` (R12). -/
def toFraction (v : Int) : ℚ := (v : ℚ) / 32768

/-- `from_fraction` (R13): `clamp(FRAC_ROUND(f * 32768))`. -/
def fromFraction (rule : FracRound) (f : ℚ) : Int := clamp16 (roundQuotient rule (f * 32768).num (f * 32768).den)

/-- One lane of TMU, in the second form R144 gives: `clamp(FRAC_ROUND((a * m) / 32768))`. -/
def tmul (rule : FracRound) (a m : Int) : Int := clamp16 (roundQuotient rule (a * m) 32768)

/-- SHL by one place (R171). -/
def shiftLeft (scope : ShiftScope) (a : Word) : Word :=
  match scope with
  | .perHalf => join (u16 (leftHalf a) * 2) (u16 (rightHalf a) * 2)
  | .wholeWord => trunc32 ((a.toNat : Int) * 2)

/-- SHR by one place (R172); `/` by 2 on integers is the floor. -/
def shiftRight (scope : ShiftScope) (fill : ShrFill) (a : Word) : Word :=
  match scope, fill with
  | .perHalf, .arithmetic => join (s16 (leftHalf a) / 2) (s16 (rightHalf a) / 2)
  | .perHalf, .logical => join (u16 (leftHalf a) / 2) (u16 (rightHalf a) / 2)
  | .wholeWord, .arithmetic => trunc32 (a.toInt / 2)
  | .wholeWord, .logical => trunc32 ((a.toNat : Int) / 2)

end Sys2Proof.Machine
end

