-- ==== Sys2Proof/WellFormed.lean ====
section
/-! DEFINITION. Which instructions a 32-bit word can carry: the address field is 15 bits, 0..32767 (30_encoding.md R80, R89,
R91), every other field being right by its type; and which values ENC_LAYOUT and OPCODE_MAP can take (R5, R80, R85). -/

namespace Sys2Proof

/-- The address fits ADDR = w[14:0] (R80): "an assembler refuses an address outside 0..32767" (R97). -/
def addrFits (addr : Half) : Bool := addr.toNat < 32768

/-- An instruction that has an encoding. -/
def Instr.wellFormed : Instr → Bool
  | .cad m => addrFits m.addr
  | .add m => addrFits m.addr
  | .dim m => addrFits m.addr
  | .tmu m => addrFits m.addr
  | .lst m => addrFits m.addr
  | .fst m => addrFits m.addr
  | .sto m => addrFits m.addr
  | .shl => true
  | .shr => true
  | .bpx m => addrFits m.addr
  | .blm m => addrFits m.addr
  | .bze m => addrFits m.addr
  | .jsb m => addrFits m.addr
  | .bir m => addrFits m.addr
  | .ior _ addr => addrFits addr
  | .iow _ addr => addrFits addr
  | .lix _ _ m => addrFits m.addr
  | .cix _ => true
  | .halt => true
  | .reset => true

/-- The fields of a layout: the lowest bit and the width of each (R80). -/
def EncLayout.fields (l : EncLayout) : List (Nat × Nat) :=
  [(l.bLo, 1), (l.classLo, 3), (l.opLo, 4), (l.iLo, 1), (l.tLo, 2), (l.xLo, 2), (l.sLo, 1), (l.addrLo, 15)]

/-- Every field lies in the 32 bits of a word, and no two share a bit (R80). -/
def EncLayout.valid (l : EncLayout) : Bool :=
  l.fields.all (fun f => decide (f.1 + f.2 ≤ 32)) &&
    decide (l.fields.Pairwise (fun f g => f.1 + f.2 ≤ g.1 ∨ g.1 + g.2 ≤ f.1))

/-- Every operation has a row, no operation has two, and no `(CLASS, OP)` pair has two (R85, R117). -/
def OpcodeMap.valid (m : OpcodeMap) : Bool :=
  Op.all.all (fun o => m.any (fun r => decide (r.1 = o))) &&
    decide (m.Pairwise (fun r r' => r.1 ≠ r'.1 ∧ r.2 ≠ r'.2))

/-- The values of ENC_LAYOUT and OPCODE_MAP that can tell all instructions apart. -/
def Encoding.valid (e : Encoding) : Bool := e.layout.valid && e.opcodeMap.valid

end Sys2Proof
end

