-- ==== Sys2Proof/Decode.lean ====
section
/-! DEFINITION. The spec's values of ENC_LAYOUT and OPCODE_MAP, and the decoder and the encoder, which read any values of the two
(30_encoding.md R80 to R98; D1, D2: the spec's decisions, UNVERIFIED, log 8). -/

namespace Sys2Proof

/-- The spec's ENC_LAYOUT (R80, D1). -/
def encLayout : EncLayout :=
  { bLo := 31, classLo := 28, opLo := 24, iLo := 23, tLo := 18, xLo := 16, sLo := 15, addrLo := 0 }

/-- The spec's OPCODE_MAP (R85, D2). -/
def opcodeMap : OpcodeMap :=
  [(.cad, 1, 0), (.add, 1, 1), (.dim, 1, 2), (.tmu, 1, 3),
   (.lst, 2, 0), (.fst, 2, 1), (.sto, 2, 2),
   (.shl, 3, 0), (.shr, 3, 1),
   (.bpx, 4, 0), (.blm, 4, 1), (.bze, 4, 2), (.jsb, 4, 3), (.bir, 4, 4),
   (.ior, 5, 0), (.iow, 5, 1),
   (.lix, 6, 0), (.cix, 6, 1),
   (.halt, 7, 0), (.reset, 7, 1)]

/-- The encoding a machine has by default (R5). -/
def specEncoding : Encoding := { layout := encLayout, opcodeMap := opcodeMap }

/-- The handler of a `(CLASS, OP)` pair, or none (R83, R113, R117). -/
def handlerOf (m : OpcodeMap) (cls : BitVec 3) (op : BitVec 4) : Option Op :=
  (m.find? (fun r => decide (r.2 = (cls, op)))).map (·.1)

/-- The `(CLASS, OP)` pair of an operation, from the same table; a valid table has one. -/
def opcodeOf (m : OpcodeMap) (o : Op) : BitVec 3 × BitVec 4 :=
  match m.find? (fun r => decide (r.1 = o)) with
  | some r => r.2
  | none => (0, 0)

/-- What the decoder produces from any word (R89); `s` is "decoded, never used" (R87). Bits 22:20 are not carried (R88). -/
structure Fields where
  bank : Bank
  cls : BitVec 3
  op : BitVec 4
  imm : Bool
  t : IxReg
  x : IndexSelect
  s : Bool
  addr : BitVec 15
deriving DecidableEq, Repr

/-- B = 0 is bank 1, B = 1 is bank 2 (R81, D3). -/
def Bank.ofBit (b : BitVec 1) : Bank := if b = 0 then .one else .two

/-- The bit B of a bank (R81). -/
def Bank.bit : Bank → BitVec 1
  | .one => 0
  | .two => 1

/-- `index_select` (R86). -/
def IndexSelect.ofBits (b : BitVec 2) : IndexSelect :=
  if b = 0 then .noIndex else if b = 1 then .ix0 else if b = 2 then .ix1 else .ix2

/-- The field X (R86). -/
def IndexSelect.bits : IndexSelect → BitVec 2
  | .noIndex => 0
  | .ix0 => 1
  | .ix1 => 2
  | .ix2 => 3

/-- The target register named by T (R84). -/
def IxReg.ofBits (b : BitVec 2) : IxReg :=
  if b = 0 then .ix0 else if b = 1 then .ix1 else if b = 2 then .ix2 else .ix3

/-- The field T (R84). -/
def IxReg.bits : IxReg → BitVec 2
  | .ix0 => 0
  | .ix1 => 1
  | .ix2 => 2
  | .ix3 => 3

/-- The field of `n` bits whose lowest bit is `lo`: `w[lo+n-1:lo]` (R6). -/
def getField (w : Word) (lo n : Nat) : BitVec n := w.extractLsb' lo n

/-- A field's bits at its place in a word (R98). -/
def putField {n : Nat} (v : BitVec n) (lo : Nat) : Word := (v.setWidth 32) <<< lo

/-- The pure total decoder of R89. -/
def decodeFields (l : EncLayout) (w : Word) : Fields :=
  { bank := Bank.ofBit (getField w l.bLo 1)
    cls := getField w l.classLo 3
    op := getField w l.opLo 4
    imm := decide (getField w l.iLo 1 = 1)
    t := IxReg.ofBits (getField w l.tLo 2)
    x := IndexSelect.ofBits (getField w l.xLo 2)
    s := decide (getField w l.sLo 1 = 1)
    addr := getField w l.addrLo 15 }

/-- The address part of the decoded fields. -/
def Fields.memRef (f : Fields) : MemRef := { bank := f.bank, x := f.x, addr := f.addr.setWidth 16 }

/-- The instruction of an operation with the decoded fields it uses; the others are ignored (R84, R87, R88, R93). -/
def Fields.toInstr (f : Fields) : Op → Instr
  | .cad => .cad f.memRef
  | .add => .add f.memRef
  | .dim => .dim f.memRef
  | .tmu => .tmu f.memRef
  | .lst => .lst f.memRef
  | .fst => .fst f.memRef
  | .sto => .sto f.memRef
  | .shl => .shl
  | .shr => .shr
  | .bpx => .bpx f.memRef
  | .blm => .blm f.memRef
  | .bze => .bze f.memRef
  | .jsb => .jsb f.memRef
  | .bir => .bir f.memRef
  | .ior => .ior f.x (f.addr.setWidth 16)
  | .iow => .iow f.x (f.addr.setWidth 16)
  | .lix => .lix f.imm f.t f.memRef
  | .cix => .cix f.t
  | .halt => .halt
  | .reset => .reset

/-- A decoded word: an instruction with a handler, or the name of the pair that has none (R94). -/
inductive Decoded where
  | instr (i : Instr)
  | noHandler (cls : BitVec 3) (op : BitVec 4)
deriving DecidableEq, Repr

/-- Decode and look the handler up (R89, R113). Every word decodes (R95). -/
def decode (e : Encoding) (w : Word) : Decoded :=
  let f := decodeFields e.layout w
  match handlerOf e.opcodeMap f.cls f.op with
  | some o => .instr (f.toInstr o)
  | none => .noHandler f.cls f.op

/-- The word of the given fields: R98, with the bits that belong to no field (in the spec's layout 22:20) zero. -/
def encodeFields (l : EncLayout) (f : Fields) : Word :=
  putField f.bank.bit l.bLo ||| putField f.cls l.classLo ||| putField f.op l.opLo
    ||| putField (BitVec.ofBool f.imm) l.iLo ||| putField f.t.bits l.tLo
    ||| putField f.x.bits l.xLo ||| putField (BitVec.ofBool f.s) l.sLo ||| putField f.addr l.addrLo

/-- The fields of an operation that has no operand: all of them 0 (R97). -/
def Op.fields (o : Op) (p : OpcodeMap) : Fields :=
  { bank := .one, cls := (opcodeOf p o).1, op := (opcodeOf p o).2, imm := false, t := .ix0, x := .noIndex, s := false, addr := 0 }

/-- The fields of an operation on `m`. -/
def Op.fieldsAt (o : Op) (p : OpcodeMap) (m : MemRef) : Fields :=
  { o.fields p with bank := m.bank, x := m.x, addr := m.addr.setWidth 15 }

/-- The fields an encoder writes for an instruction: those it ignores are 0 (R88, R97, R98). -/
def Instr.fields (p : OpcodeMap) : Instr → Fields
  | .cad m => Op.cad.fieldsAt p m
  | .add m => Op.add.fieldsAt p m
  | .dim m => Op.dim.fieldsAt p m
  | .tmu m => Op.tmu.fieldsAt p m
  | .lst m => Op.lst.fieldsAt p m
  | .fst m => Op.fst.fieldsAt p m
  | .sto m => Op.sto.fieldsAt p m
  | .shl => Op.shl.fields p
  | .shr => Op.shr.fields p
  | .bpx m => Op.bpx.fieldsAt p m
  | .blm m => Op.blm.fieldsAt p m
  | .bze m => Op.bze.fieldsAt p m
  | .jsb m => Op.jsb.fieldsAt p m
  | .bir m => Op.bir.fieldsAt p m
  | .ior x addr => Op.ior.fieldsAt p { bank := .one, x := x, addr := addr }
  | .iow x addr => Op.iow.fieldsAt p { bank := .one, x := x, addr := addr }
  | .lix imm t m => { Op.lix.fieldsAt p m with imm := imm, t := t }
  | .cix t => { Op.cix.fields p with t := t }
  | .halt => Op.halt.fields p
  | .reset => Op.reset.fields p

/-- The word of a well-formed instruction (R98). -/
def encode (e : Encoding) (i : Instr) : Word := encodeFields e.layout (i.fields e.opcodeMap)

/-- The decoder on a row of spec/opcode_table.json: the 32-bit word is `w`, its bits from `nbits` up being 0, in the
spec's encoding, which the table numbers. -/
def decodeTableWord (nbits w : Nat) : Option Instr :=
  match decode specEncoding (BitVec.ofNat 32 (w % 2 ^ nbits)) with
  | .instr i => some i
  | .noHandler _ _ => none

end Sys2Proof
end

