-- ==== Sys2Proof/Machine/Params.lean ====
section
/-! DEFINITION. The values the parameters of 00_scope.md R5 have after power-on: the spec's defaults, and opaque constants for
the two it leaves OPEN (log 2, log 3). -/

namespace Sys2Proof.Machine

/-- The parameters of R5: COUNTER_BITS is 64 (D27), ENC_LAYOUT and OPCODE_MAP are R80's and R85's (D1, D2), FRAC_ROUND truncates toward zero (D12), SHIFT_SCOPE is per half and SHR_FILL arithmetic (D14),
CYCLES_PER_INSTR is 1 (D27); RTC_IO_ADDR and DEVICE_ADDRS are OPEN (D20, D22), the second "disjoint from RTC_IO_ADDR". -/
def initialConfig : Config :=
  { counterBits := 64
    encoding := specEncoding
    fracRound := .truncate
    shiftScope := .perHalf
    shrFill := .arithmetic
    cyclesPerInstr := 1
    rtcIoAddr := Config.openRtcIoAddr
    deviceAddrs := Config.openDeviceAddrs.filter (fun a => decide (a ≠ Config.openRtcIoAddr)) }

end Sys2Proof.Machine
end

