-- ==== Sys2Proof/Machine/State.lean ====
section
/-! DEFINITION. The state of one CORE instance (10_state.md R20, R21), as plain data, its value after power-on (R22,
70_reset_and_hazards.md R272), and the reasons a step can end without a next state. -/

namespace Sys2Proof.Machine

/-- The cells of one bank in canonical form: strictly rising keys, no zero entry. Word `a` of a bank takes the keys `4a` (its
most significant byte) to `4a + 3`. The bytes are a representation only: the word is the smallest addressable unit (R56;
DESIGN CHOICE, log 1). -/
abbrev Memory := List Host.Cell

/-- Why the hardware would fault. It never does: "The block raises no exception and takes no trap" (R230, R54), so there is no
constructor, and no step can answer a fault. -/
inductive Fault where
deriving DecidableEq, Repr

/-- Why the model gives a step no meaning. -/
inductive Refusal where
  /-- Raised only by an arm of `exec` whose instruction has no meaning yet; no arm raises it now. Safe. -/
  | notModelled (mnemonic : String)
  /-- Raised by BIR of a word whose right half is neither 1 nor 2: "REFUSED(BIR_BAD_BANK)" (R127, R190, D7). Safe: it "errs
  toward unprovable". -/
  | birBadBank
  /-- Raised by `step` in a state that carries the refused mark: "the refused state has no further step" (R128). Safe. -/
  | afterRefusal
deriving DecidableEq, Repr

/-- The whole state: the registers and banks of R20, the refused mark of R21, the output history of R243, and the model's own
two fields (`draws`, log 4; `cfg`, log 2). -/
structure State where
  /-- Accumulator `A` (R23). -/
  a : Word
  /-- Index register `ix[0]` (R24). -/
  ix0 : Half
  /-- Index register `ix[1]` (R24). -/
  ix1 : Half
  /-- Index register `ix[2]` (R24). -/
  ix2 : Half
  /-- Index register `ix[3]`, never an address offset (R24). -/
  ix3 : Half
  /-- Program counter offset `P` (R25, R26). -/
  p : Half
  /-- Bank flag `PB` (R25, R27). -/
  pb : Bank
  /-- The only flag (R28). -/
  halted : Bool
  /-- Instruction counter (R30), modulo `2 ^ COUNTER_BITS`. -/
  icount : Nat
  /-- Cycle counter (R31), modulo `2 ^ COUNTER_BITS`. -/
  ccount : Nat
  /-- Real-time clock register (R32). -/
  rtc : Half
  /-- Sub-tick accumulator, in seconds (R33). -/
  frac : ℚ
  /-- Bank 1, 65536 words (R50). -/
  m1 : Memory
  /-- Bank 2, 4096 words (R50). -/
  m2 : Memory
  /-- The bookkeeping bit of R21. -/
  refused : Bool
  /-- The output history: each `(d, v)` written to a device address, oldest first (R243). -/
  outputs : List (Half × Word)
  /-- The model's own: how many values the device has supplied (R243, log 4). -/
  draws : Nat
  /-- The model's own: the parameters of R5, which nothing changes (log 2). -/
  cfg : Config
deriving DecidableEq, Repr

/-- The machine after power-on: every register at the value Reset gives it, every memory cell 0 (R22, R55, R272). -/
def State.reset : State :=
  { a := 0, ix0 := 0, ix1 := 0, ix2 := 0, ix3 := 0
    p := 0, pb := .one, halted := false
    icount := 0, ccount := 0, rtc := 0, frac := 0
    m1 := [], m2 := []
    refused := false, outputs := [], draws := 0, cfg := initialConfig }

end Sys2Proof.Machine
end

