-- ==== Sys2Proof/Machine/Ops.lean ====
section
/-! DEFINITION. The named operations over memory, registers and the I/O port, the Reset transition, and the end of a handler
(20_memory.md R50 to R55, 40_execution_engine.md R113, R114, 60_exceptions.md R240 to R243, 70_reset_and_hazards.md R270).
There is no exception to take and none to return from (R230, R234). -/

namespace Sys2Proof.Machine

/-- The byte at a key of the representation; an unlisted key reads 0 ("memory starts zeroed", R55). -/
def Memory.readByte : Memory → Nat → Byte
  | [], _ => 0#8
  | (k', b) :: rest, k => if k' = k then b else Memory.readByte rest k

/-- Every entry of key `k` taken out. -/
def Memory.erase : Memory → Nat → Memory
  | [], _ => []
  | (k', b) :: rest, k => if k' = k then Memory.erase rest k else (k', b) :: Memory.erase rest k

/-- An entry put before the first higher key. -/
def Memory.insert : Memory → Nat → Byte → Memory
  | [], k, v => [(k, v)]
  | (k', b) :: rest, k, v => if k < k' then (k, v) :: (k', b) :: rest else (k', b) :: Memory.insert rest k v

/-- A byte written; writing 0 removes the entry, so the form stays canonical. -/
def Memory.writeByte (m : Memory) (k : Nat) (v : Byte) : Memory :=
  if v = 0#8 then Memory.erase m k else Memory.insert (Memory.erase m k) k v

/-- The word at address `a` of a bank. -/
def Memory.readWord (m : Memory) (a : Nat) : Word :=
  m.readByte (4 * a) ++ m.readByte (4 * a + 1) ++ m.readByte (4 * a + 2) ++ m.readByte (4 * a + 3)

/-- A word written at address `a` of a bank. -/
def Memory.writeWord (m : Memory) (a : Nat) (v : Word) : Memory :=
  (((m.writeByte (4 * a) (v.extractLsb' 24 8)).writeByte (4 * a + 1) (v.extractLsb' 16 8)).writeByte (4 * a + 2)
    (v.extractLsb' 8 8)).writeByte (4 * a + 3) (v.extractLsb' 0 8)

/-- Keys rising from `lo` on and below `hi`, and no entry 0. -/
def Memory.wfFrom (lo hi : Nat) : Memory → Bool
  | [] => true
  | (k, b) :: rest => decide (lo ≤ k) && decide (k < hi) && decide (b ≠ 0#8) && Memory.wfFrom (k + 1) hi rest

/-- The canonical form of a bank of `cap` words. -/
def Memory.wf (cap : Nat) (m : Memory) : Bool := Memory.wfFrom 0 (4 * cap) m

/-- `cap(1) = 65536`, `cap(2) = 4096` (R50); no other bank has a cell. -/
def capacity : Nat → Nat
  | 1 => 65536
  | 2 => 4096
  | _ => 0

/-- `MemRead(bank, addr)` (R52): the address modulo the capacity (R51); "bank values outside {1,2} return 0". -/
def State.memRead (s : State) (bank addr : Nat) : Word :=
  match bank with
  | 1 => s.m1.readWord (addr % 65536)
  | 2 => s.m2.readWord (addr % 4096)
  | _ => 0#32

/-- `MemWrite(bank, addr, v)` (R53): no effect in a bank outside {1, 2} (D34). -/
def State.memWrite (s : State) (bank addr : Nat) (v : Word) : State :=
  match bank with
  | 1 => { s with m1 := s.m1.writeWord (addr % 65536) v }
  | 2 => { s with m2 := s.m2.writeWord (addr % 4096) v }
  | _ => s

/-- `A <- v` (R9, R23). -/
def State.setAcc (s : State) (v : Word) : State := { s with a := v }

/-- The value of an index register (R24). -/
def State.getIx (s : State) : IxReg → Half
  | .ix0 => s.ix0
  | .ix1 => s.ix1
  | .ix2 => s.ix2
  | .ix3 => s.ix3

/-- `ix[T] <- v` (R9, R24). -/
def State.setIx (s : State) (r : IxReg) (v : Half) : State :=
  match r with
  | .ix0 => { s with ix0 := v }
  | .ix1 => { s with ix1 := v }
  | .ix2 => { s with ix2 := v }
  | .ix3 => { s with ix3 := v }

/-- `P <- p; PB <- b` (R9, R25). -/
def State.setPc (s : State) (p : Half) (b : Bank) : State := { s with p := p, pb := b }

/-- `icount` and `ccount` after a step that counts, both modulo `2 ^ COUNTER_BITS`, by default 2^64 (R30, R31, R114, D27). -/
def State.count (s : State) : State :=
  { s with
    icount := (s.icount + 1) % 2 ^ s.cfg.counterBits
    ccount := (s.ccount + s.cfg.cyclesPerInstr) % 2 ^ s.cfg.counterBits }

/-- The refused mark (R21, R128). -/
def State.markRefused (s : State) : State := { s with refused := true }

/-- The Reset transition (R270): registers, counters and clock; "M1, M2 unchanged; refused unchanged". The output history
and the number of draws are the device's side and stay (DEDUCED, log 5). -/
def State.resetTransition (s : State) : State :=
  { s with
    a := 0, ix0 := 0, ix1 := 0, ix2 := 0, ix3 := 0
    p := 0, pb := .one, halted := false
    icount := 0, ccount := 0, rtc := 0, frac := 0 }

/-- The three kinds of I/O address (R240). -/
inductive IoKind where
  | rtc
  | device
  | unmapped
deriving DecidableEq, Repr

/-- Which kind an I/O address is (R240). DEVICE_ADDRS is disjoint from RTC_IO_ADDR (R5), so the order of the tests is free. -/
def ioKind (c : Config) (addr : Half) : IoKind :=
  if addr = c.rtcIoAddr then .rtc else if addr ∈ c.deviceAddrs then .device else .unmapped

/-- The word `IORead(addr)` returns (R241): `join(RTC, 0)`, a value the device supplies, or 0. -/
def State.ioValue (s : State) (addr : Half) : Word :=
  match ioKind s.cfg addr with
  | .rtc => join (u16 s.rtc) 0
  | .device => Config.deviceDraw s.draws
  | .unmapped => 0

/-- The state after `IORead(addr)`: a device read takes the next draw (R243), the others have "no side effect" (R241). -/
def State.afterIoRead (s : State) (addr : Half) : State :=
  match ioKind s.cfg addr with
  | .rtc => s
  | .device => { s with draws := s.draws + 1 }
  | .unmapped => s

/-- `IOWrite(addr, v)` (R242, R243): an event for a device address, otherwise nothing; RTC keeps its value (D21). -/
def State.ioWrite (s : State) (addr : Half) (v : Word) : State :=
  match ioKind s.cfg addr with
  | .rtc => s
  | .device => { s with outputs := s.outputs ++ [(addr, v)] }
  | .unmapped => s

/-- The four outcomes of a handler (R113), each with the state its writes leave. -/
inductive Handled where
  | next (s : State)
  | jump (t : Half) (b : Bank) (s : State)
  | resetDone (s : State)
  | refused (r : Refusal)

/-- What the engine does with a handler's outcome (R113, R114, R116): advance or jump, and count; after RESET nothing. -/
def finish : Handled → Host.Outcome State Fault Refusal
  | .next s => .next (s.setPc (s.p + 1) s.pb).count
  | .jump t b s => .next (s.setPc t b).count
  | .resetDone s => .next s
  | .refused r => .refused r

end Sys2Proof.Machine
end

