-- ==== Sys2Proof/Machine/Operands.lean ====
section
/-! DEFINITION. The effective-address adder and the operand forms (30_encoding.md R90 to R93). -/

namespace Sys2Proof.Machine

/-- The pair `(EA.bank, EA.addr)` (R90). -/
structure EffAddr where
  bank : Bank
  addr : Half
deriving DecidableEq, Repr

/-- The 16-bit sum of the adder (R90): modulo 65536 the signed and the unsigned reading of the index register agree (R24). -/
def State.eaAddr (s : State) (x : IndexSelect) (addr : Half) : Half :=
  match x with
  | .noIndex => addr
  | .ix0 => addr + s.ix0
  | .ix1 => addr + s.ix1
  | .ix2 => addr + s.ix2

/-- `effective_address(inst, ix)` (R90): the bank is the instruction's, whatever the index (R87). -/
def State.ea (s : State) (m : MemRef) : EffAddr := { bank := m.bank, addr := s.eaAddr m.x m.addr }

/-- The memory word at an effective address, `MemRead(EA.bank, EA.addr)` (R93). -/
def State.readEa (s : State) (e : EffAddr) : Word := s.memRead e.bank.num e.addr.toNat

/-- A word stored at an effective address, `MemWrite(EA.bank, EA.addr, v)` (R93). -/
def State.writeEa (s : State) (e : EffAddr) (v : Word) : State := s.memWrite e.bank.num e.addr.toNat v

/-- The memory operand `M` of an instruction (R93). -/
def State.operand (s : State) (m : MemRef) : Word := s.readEa (s.ea m)

end Sys2Proof.Machine
end

