-- ==== Sys2Proof/Machine/Arithmetic.lean ====
section
/-! DEFINITION. CAD, ADD, DIM, TMU (41_arithmetic.md R140 to R145). -/

namespace Sys2Proof.Machine

/-- The family's common form (R140): `A <- f A M`, outcome NEXT. -/
def accFromOperand (f : Word → Word → Word) (m : MemRef) (s : State) : Host.Outcome State Fault Refusal :=
  finish (.next (s.setAcc (f s.a (s.operand m))))

/-- CAD (R141): `A <- lanes((a, m) -> 0 + m, A, M)`. -/
def execCad (m : MemRef) (s : State) : Host.Outcome State Fault Refusal :=
  accFromOperand (lanes (fun _ m => 0 + m)) m s

/-- ADD (R142): each half wraps (R145). -/
def execAdd (m : MemRef) (s : State) : Host.Outcome State Fault Refusal :=
  accFromOperand (lanes (fun a m => a + m)) m s

/-- DIM (R143): `A - M` in each half, wrapping (R145, D11). -/
def execDim (m : MemRef) (s : State) : Host.Outcome State Fault Refusal :=
  accFromOperand (lanes (fun a m => a - m)) m s

/-- TMU (R144): saturating (R145), rounded as FRAC_ROUND says. -/
def execTmu (m : MemRef) (s : State) : Host.Outcome State Fault Refusal :=
  accFromOperand (lanes (tmul s.cfg.fracRound)) m s

end Sys2Proof.Machine
end

