-- ==== Sys2Proof/Machine/Flags.lean ====
section
/-! DEFINITION. The one flag, `halted`, and the two conditions the branches test on `A` directly: there are no condition codes
(10_state.md R28, R29; 44_control_transfer.md R182, R184). -/

namespace Sys2Proof.Machine

/-- BLM's condition, `s16(L(A)) < 0` (R182, D15). -/
def State.accNegative (s : State) : Bool := decide (s16 (leftHalf s.a) < 0)

/-- BZE's condition, all 32 bits of `A` zero (R184, D16). -/
def State.accZero (s : State) : Bool := decide (s.a = 0)

/-- `halted <- true` (R28, R220). -/
def State.setHalted (s : State) : State := { s with halted := true }

end Sys2Proof.Machine
end

