-- ==== Sys2Proof/Machine/Branch.lean ====
section
/-! DEFINITION. BPX, BLM, BZE, JSB, BIR (44_control_transfer.md R180 to R192). -/

namespace Sys2Proof.Machine

/-- A branch to EA under a condition (R180); a failed condition "falls through to normal auto-increment" (R113). -/
def branchIf (taken : Bool) (m : MemRef) (s : State) : Host.Outcome State Fault Refusal :=
  finish (if taken then .jump (s.ea m).addr (s.ea m).bank s else .next s)

/-- BPX (R181). -/
def execBpx (m : MemRef) (s : State) : Host.Outcome State Fault Refusal :=
  branchIf true m s

/-- BLM (R182). -/
def execBlm (m : MemRef) (s : State) : Host.Outcome State Fault Refusal :=
  branchIf s.accNegative m s

/-- BZE (R184). -/
def execBze (m : MemRef) (s : State) : Host.Outcome State Fault Refusal :=
  branchIf s.accZero m s

/-- The return word `join(trunc16(P + 1), PB)` (R186, C1). -/
def State.returnWord (s : State) : Word := join (u16 (s.p + 1)) s.pb.num

/-- JSB (R186): the return word to EA, then to EA + 1. "Write word to memory, branch to word+1" (R188). -/
def execJsb (m : MemRef) (s : State) : Host.Outcome State Fault Refusal :=
  finish (.jump ((s.ea m).addr + 1) (s.ea m).bank (s.writeEa (s.ea m) s.returnWord))

/-- BIR (R190): to the offset and bank of the word at EA; a right half other than 1 or 2 is refused (D7). -/
def execBir (m : MemRef) (s : State) : Host.Outcome State Fault Refusal :=
  finish
    (let v := split (s.operand m)
     if v.2 = 1 then .jump (trunc16 v.1) .one s
     else if v.2 = 2 then .jump (trunc16 v.1) .two s
     else .refused .birBadBank)

end Sys2Proof.Machine
end

