-- ==== Sys2Proof/Machine/Control.lean ====
section
/-! DEFINITION. HALT, RESET (47_machine_control.md R220, R222), and the step of a word that has no handler
(40_execution_engine.md R115). -/

namespace Sys2Proof.Machine

/-- HALT (R220): P advances and the step counts. -/
def execHalt (s : State) : Host.Outcome State Fault Refusal :=
  finish (.next s.setHalted)

/-- RESET (R222): the Reset transition, no auto-increment, no counting. -/
def execReset (s : State) : Host.Outcome State Fault Refusal :=
  finish (.resetDone s.resetTransition)

/-- A word with no handler (R94, R115): "a no-op that still advances P". -/
def execNoHandler (s : State) : Host.Outcome State Fault Refusal :=
  finish (.next s)

end Sys2Proof.Machine
end

