-- ==== Sys2Proof/Machine/Index.lean ====
section
/-! DEFINITION. LIX, CIX (46_index.md R210, R212). -/

namespace Sys2Proof.Machine

/-- LIX (R210): the right half of the word at EA, or with the immediate flag `EA.addr` itself. EA uses the old index registers (R284). -/
def execLix (imm : Bool) (t : IxReg) (m : MemRef) (s : State) : Host.Outcome State Fault Refusal :=
  finish (.next (s.setIx t (if imm then (s.ea m).addr else rightHalf (s.operand m))))

/-- CIX (R212). -/
def execCix (t : IxReg) (s : State) : Host.Outcome State Fault Refusal :=
  finish (.next (s.setIx t 0))

end Sys2Proof.Machine
end

