-- ==== Sys2Proof/Machine/Io.lean ====
section
/-! DEFINITION. IOR, IOW (45_io.md R200, R202). -/

namespace Sys2Proof.Machine

/-- IOR (R200): `A <- IORead(EA.addr)`. -/
def execIor (x : IndexSelect) (addr : Half) (s : State) : Host.Outcome State Fault Refusal :=
  finish (.next ((s.afterIoRead (s.eaAddr x addr)).setAcc (s.ioValue (s.eaAddr x addr))))

/-- IOW (R202): `IOWrite(EA.addr, A)`. -/
def execIow (x : IndexSelect) (addr : Half) (s : State) : Host.Outcome State Fault Refusal :=
  finish (.next (s.ioWrite (s.eaAddr x addr) s.a))

end Sys2Proof.Machine
end

