-- ==== Sys2Proof/Machine/Shift.lean ====
section
/-! DEFINITION. SHL, SHR (43_shift.md R170 to R172). -/

namespace Sys2Proof.Machine

/-- SHL (R171), as SHIFT_SCOPE says. -/
def execShl (s : State) : Host.Outcome State Fault Refusal :=
  finish (.next (s.setAcc (shiftLeft s.cfg.shiftScope s.a)))

/-- SHR (R172), as SHIFT_SCOPE and SHR_FILL say. -/
def execShr (s : State) : Host.Outcome State Fault Refusal :=
  finish (.next (s.setAcc (shiftRight s.cfg.shiftScope s.cfg.shrFill s.a)))

end Sys2Proof.Machine
end

