-- ==== Sys2Proof/Machine/Store.lean ====
section
/-! DEFINITION. LST, FST, STO (42_store.md R160 to R163). -/

namespace Sys2Proof.Machine

/-- The family's common form (R160): the word at EA becomes `f A old`, outcome NEXT. -/
def storeAtEa (f : Word → Word → Word) (m : MemRef) (s : State) : Host.Outcome State Fault Refusal :=
  finish (.next (s.writeEa (s.ea m) (f s.a (s.operand m))))

/-- LST (R161): the left half only, in its own position (D13). -/
def execLst (m : MemRef) (s : State) : Host.Outcome State Fault Refusal :=
  storeAtEa (fun a old => (a &&& 0xFFFF0000#32) ||| (old &&& 0x0000FFFF#32)) m s

/-- FST (R162): both halves. -/
def execFst (m : MemRef) (s : State) : Host.Outcome State Fault Refusal :=
  storeAtEa (fun a _ => a) m s

/-- STO (R163): the right half only, in its own position (D13). -/
def execSto (m : MemRef) (s : State) : Host.Outcome State Fault Refusal :=
  storeAtEa (fun a old => (old &&& 0xFFFF0000#32) ||| (a &&& 0x0000FFFF#32)) m s

end Sys2Proof.Machine
end

