-- ==== Sys2Proof/Machine/Dispatch.lean ====
section
/-! DEFINITION. The dispatch of a decoded instruction to its one handler (40_execution_engine.md R113, R117). -/

namespace Sys2Proof.Machine

def exec (i : Instr) (s : State) : Host.Outcome State Fault Refusal :=
  match i with
  | .cad m => Sys2Proof.Machine.execCad m s
  | .add m => Sys2Proof.Machine.execAdd m s
  | .dim m => Sys2Proof.Machine.execDim m s
  | .tmu m => Sys2Proof.Machine.execTmu m s
  | .lst m => Sys2Proof.Machine.execLst m s
  | .fst m => Sys2Proof.Machine.execFst m s
  | .sto m => Sys2Proof.Machine.execSto m s
  | .shl => Sys2Proof.Machine.execShl s
  | .shr => Sys2Proof.Machine.execShr s
  | .bpx m => Sys2Proof.Machine.execBpx m s
  | .blm m => Sys2Proof.Machine.execBlm m s
  | .bze m => Sys2Proof.Machine.execBze m s
  | .jsb m => Sys2Proof.Machine.execJsb m s
  | .bir m => Sys2Proof.Machine.execBir m s
  | .ior x addr => Sys2Proof.Machine.execIor x addr s
  | .iow x addr => Sys2Proof.Machine.execIow x addr s
  | .lix imm t m => Sys2Proof.Machine.execLix imm t m s
  | .cix t => Sys2Proof.Machine.execCix t s
  | .halt => Sys2Proof.Machine.execHalt s
  | .reset => Sys2Proof.Machine.execReset s

end Sys2Proof.Machine
end

