-- ==== Sys2Proof/Machine/Fetch.lean ====
section
/-! DEFINITION. What a step does before it dispatches: the tests of the engine state, the fetch and the decoding
(40_execution_engine.md R110 to R113, R116), and the placing of a word where the next step fetches it. -/

namespace Sys2Proof.Machine

/-- The instruction word at `(PB, P)` (R111). -/
def State.fetchWord (s : State) : Word := s.memRead s.pb.num s.p.toNat

/-- What the engine does in a state (R110, R113, R128). -/
inductive EngineAction where
  /-- The refused state has no further step (R128). -/
  | stop
  /-- The Halted state: a step is a no-op (R110). -/
  | idle
  /-- The Ready state, at a word with a handler (R113). -/
  | run (i : Instr)
  /-- The Ready state, at a word with no handler (R115). -/
  | skip
deriving DecidableEq, Repr

/-- The engine's choice in a state; the mark is tested before `halted` (DEDUCED, log 10). -/
def State.engineAction (s : State) : EngineAction :=
  if s.refused then .stop
  else if s.halted then .idle
  else
    match decode s.cfg.encoding s.fetchWord with
    | .instr i => .run i
    | .noHandler _ _ => .skip

/-- A word placed at `(PB, P)`, in a state that will fetch it: neither halted nor refused. -/
def State.placeWord (s : State) (w : Word) : State :=
  { s.memWrite s.pb.num s.p.toNat w with halted := false, refused := false }

end Sys2Proof.Machine
end

