-- ==== Sys2Proof/Machine/Step.lean ====
section
/-! DEFINITION. One step of the core (40_execution_engine.md R116), and the placing of an instruction where the next step
fetches it. -/

namespace Sys2Proof.Machine

/-- `step()` (R116). In the Halted state it changes nothing (R110); a refused state has no step (R128). -/
def step (s : State) : Host.Outcome State Fault Refusal :=
  match s.engineAction with
  | .stop => .refused .afterRefusal
  | .idle => .next s
  | .run i => exec i s
  | .skip => execNoHandler s

/-- `s` with the table's word `w` of `nbits` bits (the bits above are 0) at `(PB, P)`, ready to be fetched (DESIGN CHOICE, log 7). -/
def State.withFetchWord (s : State) (nbits w : Nat) : State :=
  s.placeWord (BitVec.ofNat 32 (w % 2 ^ nbits))

end Sys2Proof.Machine
end

