-- ==== Sys2Proof/Machine/Assembler.lean ====
section
/-! DEFINITION. The assembler statements of 30_encoding.md R97 to R101 as data, and the words they place. Their concrete text is
tooling, out of scope (00_scope.md R4; DESIGN CHOICE, log 13). -/

namespace Sys2Proof.Machine

/-- The address operand of a statement: `addr`, `bank:addr`, with `,Xk` (R97), or a literal `#n` (R100). -/
inductive AsmArg where
  | address (bank addr : Nat) (k : Option Nat)
  | literal (n : Int)
deriving DecidableEq, Repr

/-- An assembler statement (R97, R99). R97's general forms `MNEM 2:addr` and `MNEM 1:addr` are taken for IOR and IOW too, as
95_test_vectors.md IO-8 writes `IOR 2:16`, and for both forms of LIX, for which the spec writes no prefix (DESIGN CHOICE, log 13). -/
inductive AsmStmt where
  /-- `MNEM arg`, for the instructions with a memory, branch or I/O operand. -/
  | onAddress (o : Op) (arg : AsmArg)
  /-- `SHL`, `SHR`, `HALT`, `RESET`. -/
  | bare (o : Op)
  /-- `LIX t,arg`. -/
  | lixMemory (t : Nat) (arg : AsmArg)
  /-- `LIX t,=addr[,Xk]`, with a bank prefix or, without one, bank 1. -/
  | lixImmediate (t bank addr : Nat) (k : Option Nat)
  /-- `CIX t`. -/
  | cix (t : Nat)
  /-- `NOP` (R99). -/
  | nop
  /-- `WORD l,r` (R99). -/
  | wordHalves (l r : Int)
  /-- `WORD n` (R99). -/
  | word (n : Int)
deriving DecidableEq, Repr

/-- Why the assembler refuses a statement (R97, R101). -/
inductive AsmRefusal where
  | addressOutOfRange
  | bankOutOfRange
  | indexOutOfRange
  | targetOutOfRange
  | literalNotLegal
  | wrongForm
deriving DecidableEq, Repr

/-- What a statement assembles to: its word, and the literal word to be placed at the literal's address (R100). -/
inductive Assembled where
  | word (w : Word)
  | withLiteral (w literal : Word)
  | refused (r : AsmRefusal)
deriving DecidableEq, Repr

/-- The statement assembles to the encoder's word of `i` (R98), which decodes to `i`. -/
def Assembled.runsAs (a : Assembled) (e : Encoding) (i : Instr) : Prop := a = .word (encode e i) ∧ decode e (encode e i) = .instr i

/-- The assembler refuses the statement (R97, R101). -/
def Assembled.isRefused (a : Assembled) : Prop := ∃ r, a = .refused r

/-- `k` in 1..3, or no index (R97). -/
def asmIndex : Option Nat → Option IndexSelect
  | none => some .noIndex
  | some 1 => some .ix0
  | some 2 => some .ix1
  | some 3 => some .ix2
  | some _ => none

/-- `T` in 0..3 (R97). -/
def asmTarget : Nat → Option IxReg
  | 0 => some .ix0
  | 1 => some .ix1
  | 2 => some .ix2
  | 3 => some .ix3
  | _ => none

/-- The bank a statement names (R97). -/
def asmBank : Nat → Option Bank
  | 1 => some .one
  | 2 => some .two
  | _ => none

/-- The word of the fields that `f` makes of an address operand (R98), or the refusal of R97. -/
def asmAt (e : Encoding) (bank addr : Nat) (k : Option Nat) (f : MemRef → Fields) : Assembled :=
  match asmBank bank, asmIndex k with
  | none, _ => .refused .bankOutOfRange
  | _, none => .refused .indexOutOfRange
  | some b, some x =>
    if addr ≤ 32767 then .word (encodeFields e.layout (f { bank := b, x := x, addr := BitVec.ofNat 16 addr }))
    else .refused .addressOutOfRange

/-- The same with the literal word `join(0, n)` at `litAddr` of bank 1, an address of the assembler's choosing (R100, D38). -/
def asmLiteral (e : Encoding) (litAddr : Nat) (n : Int) (f : MemRef → Fields) : Assembled :=
  match asmAt e 1 litAddr none f with
  | .word w => .withLiteral w (join 0 n)
  | other => other

/-- An address operand, where a literal is legal only if `reads` (R101). -/
def asmOperand (e : Encoding) (litAddr : Nat) (reads : Bool) (arg : AsmArg) (f : MemRef → Fields) : Assembled :=
  match arg with
  | .address bank addr k => asmAt e bank addr k f
  | .literal n => if reads then asmLiteral e litAddr n f else .refused .literalNotLegal

/-- The statements with a memory, branch or I/O operand (R93, R101). An I/O statement's bank is written as B and ignored by the
machine (R200, D19; DESIGN CHOICE, log 13). -/
def asmOnAddress (e : Encoding) (litAddr : Nat) (arg : AsmArg) (o : Op) : Assembled :=
  match o with
  | .cad | .add | .dim | .tmu => asmOperand e litAddr true arg (o.fieldsAt e.opcodeMap)
  | .lst | .fst | .sto | .bpx | .blm | .bze | .jsb | .bir | .ior | .iow =>
    asmOperand e litAddr false arg (o.fieldsAt e.opcodeMap)
  | .shl | .shr | .lix | .cix | .halt | .reset => .refused .wrongForm

/-- The statements without an operand (R97). -/
def asmBare (e : Encoding) (o : Op) : Assembled :=
  match o with
  | .shl | .shr | .halt | .reset => .word (encodeFields e.layout (o.fields e.opcodeMap))
  | .cad | .add | .dim | .tmu | .lst | .fst | .sto | .bpx | .blm | .bze | .jsb | .bir | .ior | .iow | .lix | .cix =>
    .refused .wrongForm

/-- A statement assembled, with `litAddr` the address chosen for its literal, if it has one, in the machine's encoding (R97 to
R101). -/
def assemble (e : Encoding) (litAddr : Nat) : AsmStmt → Assembled
  | .onAddress o arg => asmOnAddress e litAddr arg o
  | .bare o => asmBare e o
  | .lixMemory t arg =>
    match asmTarget t with
    | some r => asmOperand e litAddr true arg (fun m => (Instr.lix false r m).fields e.opcodeMap)
    | none => .refused .targetOutOfRange
  | .lixImmediate t bank addr k =>
    match asmTarget t with
    | some r => asmAt e bank addr k (fun m => (Instr.lix true r m).fields e.opcodeMap)
    | none => .refused .targetOutOfRange
  | .cix t =>
    match asmTarget t with
    | some r => .word (encode e (.cix r))
    | none => .refused .targetOutOfRange
  | .nop => .word 0x00000000#32
  | .wordHalves l r => .word (join l r)
  | .word n => .word (trunc32 n)

end Sys2Proof.Machine
end

