-- ==== Sys2Proof/Machine/Clock.lean ====
section
/-! DEFINITION. The real-time clock's input (60_exceptions.md R235 to R237). -/

namespace Sys2Proof.Machine

/-- The whole ticks in the elapsed time held plus `delta`: `floor(frac * 32)` after `frac <- frac + delta` (R235). -/
def State.wholeTicks (s : State) (delta : ℚ) : Int := ⌊(s.frac + delta) * 32⌋

/-- `tick(delta)` (R235), in exact arithmetic (D37), in either engine state (R237, D36). -/
def State.tick (s : State) (delta : ℚ) : State :=
  { s with
    rtc := trunc16 (u16 s.rtc + s.wholeTicks delta)
    frac := s.frac + delta - (s.wholeTicks delta : ℚ) / 32 }

end Sys2Proof.Machine
end

