-- ==== Sys2Proof/Machine/HostPort.lean ====
section
/-! DEFINITION. The host's transactions (40_execution_engine.md R119 to R128): each is atomic, and any of them may come between
two steps (R121). They are no part of `step` (DESIGN CHOICE, log 9). -/

namespace Sys2Proof.Machine

/-- The state a step leaves: after a refused one, the state with the mark set and nothing else changed (R116, R128; DEDUCED, log 10). -/
def stepMarked (s : State) : State :=
  match step s with
  | .next t => t
  | .fault f => nomatch f
  | .refused _ => s.markRefused

/-- `run` stops here: "while not halted and not refused" (R119). -/
def State.stopped (s : State) : Bool := s.halted || s.refused

/-- `run(max_steps)` (R119): the state it leaves, and the number of steps it executed. -/
def runFor : Nat → State → State × Nat
  | 0, s => (s, 0)
  | n + 1, s => if s.stopped then (s, 0) else ((runFor n (stepMarked s)).1, (runFor n (stepMarked s)).2 + 1)

/-- `run(None)` from `s` returns `n` and leaves `t`. From a state for which no `n` and `t` do, it "does not return" (R119, R285;
DESIGN CHOICE, log 11). -/
def RunReturns (s t : State) (n : Nat) : Prop := runFor n s = (t, n) ∧ t.stopped = true

/-- A transaction of the host that may change the state (R120). Arguments are as wide as a host can write them. -/
inductive HostAction where
  /-- `step()` (R116). -/
  | step
  /-- `run(max_steps)` with a bound of 64 bits (R119); `run(None)` is `RunReturns`. -/
  | run (maxSteps : BitVec 64)
  /-- `reset()` (R122). -/
  | reset
  /-- `tick(delta_seconds)` (R235). -/
  | tick (delta : ℚ)
  /-- `write(bank, addr, value)` (R123). -/
  | write (bank addr : Nat) (value : Int)
  /-- `set_pc(P, PB)` (R124). -/
  | setPc (p bank : Nat)
deriving DecidableEq, Repr

/-- The bank a host names, if it is 1 or 2 (R124). -/
def bankOfNat : Nat → Option Bank
  | 1 => some .one
  | 2 => some .two
  | _ => none

/-- `set_pc(p, b)` (R124); other values are "outside this spec (no move)" (D30, U14). -/
def State.hostSetPc (s : State) (p bank : Nat) : Option State :=
  match bankOfNat bank with
  | some b => if p < 65536 then some (s.setPc (BitVec.ofNat 16 p) b) else none
  | none => none

/-- The state after a host's transaction, or none where the spec gives the host no such move (U13, U14; DESIGN CHOICE, log 14). -/
def hostAct (a : HostAction) (s : State) : Option State :=
  match a with
  | .step => some (stepMarked s)
  | .run maxSteps => some (runFor maxSteps.toNat s).1
  | .reset => some s.resetTransition
  | .tick delta => if 0 ≤ delta then some (s.tick delta) else none
  | .write bank addr value => some (s.memWrite bank addr (trunc32 value))
  | .setPc p bank => s.hostSetPc p bank

/-- A transaction of the host, `run(None)` among them (R120). -/
inductive Move where
  | act (a : HostAction)
  /-- `run(None)` (R119). -/
  | runToEnd
deriving DecidableEq, Repr

/-- What a transaction does. `run(None)` that never returns leads nowhere (R285). -/
def Moves : Move → State → State → Prop
  | .act a, s, t => hostAct a s = some t
  | .runToEnd, s, t => ∃ n, RunReturns s t n

/-- An execution: transactions of the host, `step()` among them, one wholly after the other, any of them between any two (R121).
A claim over all executions holds for every placement of the ticks, the writes and the resets among the steps. -/
def Execution : List Move → State → State → Prop
  | [], s, t => t = s
  | m :: ms, s, t => ∃ u, Moves m s u ∧ Execution ms u t

/-- A state that some execution reaches from power-on (R121, R272). -/
def Reachable (t : State) : Prop := ∃ ms, Execution ms State.reset t

/-- The inspection surface without the memory reads (R125); `frac` is not on it. -/
structure Inspection where
  accumulator : Word
  halves : Int × Int
  ix0 : Half
  ix1 : Half
  ix2 : Half
  ix3 : Half
  p : Half
  bank : Nat
  halted : Bool
  icount : Nat
  ccount : Nat
  rtc : Half
deriving DecidableEq, Repr

/-- What the host reads of the registers (R125). -/
def State.inspect (s : State) : Inspection :=
  { accumulator := s.a, halves := split s.a, ix0 := s.ix0, ix1 := s.ix1, ix2 := s.ix2, ix3 := s.ix3, p := s.p
    bank := s.pb.num, halted := s.halted, icount := s.icount, ccount := s.ccount, rtc := s.rtc }

/-- `read(bank, addr)` of the host (R125): `MemRead`, so 0 in a bank other than 1 and 2. -/
def State.hostRead (s : State) (bank addr : Nat) : Word := s.memRead bank addr

end Sys2Proof.Machine
end

