-- ==== Sys2Proof/Safety.lean ====
section
/-! DEFINITION. The invariant of the machine, and the frame predicates in which the statements say what a transition from `s` to
`t` leaves unchanged. -/

namespace Sys2Proof.Machine

/-- What holds of every state the machine reaches from power-on: both banks in canonical form (R50, R55), `0 <= frac < 1/32`
(R33), `icount` in COUNTER_BITS bits and `ccount` the cost of `icount` instructions, modulo `2 ^ COUNTER_BITS` (R30, R31),
DEVICE_ADDRS disjoint from RTC_IO_ADDR (R5), and an encoding whose fields and opcodes are distinct (R80, R85). -/
structure Inv (s : State) : Prop where
  m1_wf : s.m1.wf 65536 = true
  m2_wf : s.m2.wf 4096 = true
  frac_nonneg : 0 ≤ s.frac
  frac_lt : s.frac < 1 / 32
  counter : s.icount < 2 ^ s.cfg.counterBits
  cycles : s.ccount = s.icount * s.cfg.cyclesPerInstr % 2 ^ s.cfg.counterBits
  disjoint : s.cfg.rtcIoAddr ∉ s.cfg.deviceAddrs
  encoding : s.cfg.encoding.valid = true

/-- The Ready state (R110), not refused (R128). -/
def Ready (s : State) : Prop := s.halted = false ∧ s.refused = false

/-- `P` advances by 1 modulo 65536 and `PB` stays (R113). -/
def Advanced (s t : State) : Prop := t.p = s.p + 1 ∧ t.pb = s.pb

/-- `P` and `PB` are set by a transfer (R113, R180). -/
def Transferred (t : State) (p : Half) (b : Bank) : Prop := t.p = p ∧ t.pb = b

/-- The step is counted (R114). -/
def Counted (s t : State) : Prop :=
  t.icount = (s.icount + 1) % 2 ^ s.cfg.counterBits ∧
  t.ccount = (s.ccount + s.cfg.cyclesPerInstr) % 2 ^ s.cfg.counterBits

/-- The index registers but `except` are unchanged; with `none`, all four. -/
def SameIndex (s t : State) (except : Option IxReg) : Prop := ∀ r, some r ≠ except → t.getIx r = s.getIx r

/-- Both banks are unchanged, byte for byte of their representation. -/
def SameMemory (s t : State) : Prop := t.m1 = s.m1 ∧ t.m2 = s.m2

/-- The word at `e` becomes `v`, and every word of either bank outside that cell reads as before. -/
def StoredAt (s t : State) (e : EffAddr) (v : Word) : Prop :=
  t.readEa e = v ∧
  ∀ bank addr, ¬ (bank = e.bank.num ∧ addr % capacity bank = e.addr.toNat % capacity bank) →
    t.memRead bank addr = s.memRead bank addr

/-- The clock is unchanged (R237). -/
def SameClock (s t : State) : Prop := t.rtc = s.rtc ∧ t.frac = s.frac

/-- The device's side is unchanged: no event, no draw (R243). -/
def SameDevice (s t : State) : Prop := t.outputs = s.outputs ∧ t.draws = s.draws

/-- The halted flag, the refused mark and the parameters are unchanged. -/
def SameMode (s t : State) : Prop := t.halted = s.halted ∧ t.refused = s.refused ∧ t.cfg = s.cfg

/-- An end of a run: halted and not refused (R129, D40). -/
def State.ended (s : State) : Bool := s.halted && !s.refused

end Sys2Proof.Machine
end

