-- ==== Sys2Proof/Certificates/Slice0/Obligations.lean ====
section
/-! DEFINITION. The statements for the provers. Each docstring names the rules it rests on, and the spec's own decisions (D<n>)
among them. -/

open Sys2Proof Sys2Proof.Machine

/-! ### Encoding -/

/-- Under every ENC_LAYOUT whose fields lie apart in the word and every OPCODE_MAP that tells the operations apart, every
well-formed instruction is what the decoder reads from its encoding (R84 to R89, R98). The spec's own tables (decisions D1, D2) are one
such pair; no claim here is about their being right. -/
def Obligations.DecodeOfEncodeIsTheInstruction : Prop :=
  ∀ (e : Encoding) (i : Instr), e.valid = true → i.wellFormed = true → decode e (encode e i) = .instr i

/-- The decoder answers only instructions whose address fits 15 bits (R89, R91), in any encoding; and in the spec's (D1, D2) the
word then has the opcode bits the encoder writes for that instruction (R83, R85). -/
def Obligations.DecodedInstructionsAreWellFormed : Prop :=
  (∀ (e : Encoding) (w : Word) (i : Instr), decode e w = .instr i → i.wellFormed = true) ∧
  (∀ (w : Word) (i : Instr), decode specEncoding w = .instr i → w &&& 0x7F000000#32 = encode specEncoding i &&& 0x7F000000#32)

/-- In the spec's encoding, whatever the word's other bits: bits 22:20 and S never matter; I and T do not matter outside the index
class; SHL, SHR, HALT, RESET and a pair with no handler are their CLASS and OP alone; in CIX only T matters besides, and in IOR and
IOW only X and ADDR. The encoder writes as 0 bits 22:20 and S in every word, I and T too outside the index class, B in IOR and IOW, and
every field but the opcode in SHL, SHR, HALT and RESET, but the opcode and T in CIX (R84, R87, R88, R97, R170, R200, R212, R220, R222).
That these bits are ignored is the spec's decision D4, D5, D19, and their places are D1. -/
def Obligations.IgnoredBitsDoNotChangeTheInstruction : Prop :=
  (∀ w v : Word, w &&& 0xFF8F7FFF#32 = v &&& 0xFF8F7FFF#32 → decode specEncoding w = decode specEncoding v) ∧
  (∀ w v : Word, w &&& 0x70000000#32 ≠ 0x60000000#32 → w &&& 0xFF037FFF#32 = v &&& 0xFF037FFF#32 →
    decode specEncoding w = decode specEncoding v) ∧
  (∀ p ∈ [(0x30000000#32, Instr.shl), (0x31000000#32, .shr), (0x70000000#32, .halt), (0x71000000#32, .reset)], ∀ w : Word,
    w &&& 0x7F000000#32 = p.1 → decode specEncoding w = .instr p.2) ∧
  (∀ (w v : Word) (cls : BitVec 3) (op : BitVec 4), decode specEncoding w = .noHandler cls op →
    w &&& 0x7F000000#32 = v &&& 0x7F000000#32 → decode specEncoding v = .noHandler cls op) ∧
  (∀ w v : Word, w &&& 0x7F000000#32 = 0x61000000#32 → w &&& 0x7F0C0000#32 = v &&& 0x7F0C0000#32 →
    decode specEncoding w = decode specEncoding v) ∧
  (∀ w v : Word, w &&& 0x7F000000#32 = 0x50000000#32 ∨ w &&& 0x7F000000#32 = 0x51000000#32 →
    w &&& 0x7F037FFF#32 = v &&& 0x7F037FFF#32 → decode specEncoding w = decode specEncoding v) ∧
  (∀ i : Instr, encode specEncoding i &&& 0x00708000#32 = 0) ∧
  (∀ i : Instr, i.op ≠ .lix → i.op ≠ .cix → encode specEncoding i &&& 0x00FC8000#32 = 0) ∧
  (∀ i : Instr, i.op = .ior ∨ i.op = .iow → encode specEncoding i &&& 0x80000000#32 = 0) ∧
  (∀ i ∈ [Instr.shl, .shr, .halt, .reset], encode specEncoding i &&& 0x80FFFFFF#32 = 0) ∧
  (∀ r : IxReg, encode specEncoding (.cix r) &&& 0x80F3FFFF#32 = 0)

/-- The spec's opcode map: the 20 pairs of R85 with their handlers, and the 108 pairs of R94 that have none; and the spec's
encoding is one whose fields lie apart and whose operations are told apart. The numbers are the spec's decision D2, the places
D1. -/
def Obligations.HandlersOfAllOpcodePairs : Prop :=
  (∀ o : Op, ∃ r ∈ [(Op.cad, 0x10), (.add, 0x11), (.dim, 0x12), (.tmu, 0x13), (.lst, 0x20), (.fst, 0x21), (.sto, 0x22),
      (.shl, 0x30), (.shr, 0x31), (.bpx, 0x40), (.blm, 0x41), (.bze, 0x42), (.jsb, 0x43), (.bir, 0x44), (.ior, 0x50),
      (.iow, 0x51), (.lix, 0x60), (.cix, 0x61), (.halt, 0x70), (.reset, 0x71)],
      r.1 = o ∧ handlerOf opcodeMap (BitVec.ofNat 3 (r.2 / 16)) (BitVec.ofNat 4 (r.2 % 16)) = some o) ∧
  ((List.range 128).filter
    (fun n => decide (handlerOf opcodeMap (BitVec.ofNat 3 (n / 16)) (BitVec.ofNat 4 (n % 16)) = none))).length = 108 ∧
  specEncoding.valid = true

/-- A few words of 95_test_vectors.md (E-4, E-11, E-8, E-9, ST-4, BR-9, IO-8, IX-2, IX-5, EN-2) decode, in the spec's encoding, as
written there (R80, R85; positions and numbers are the spec's decisions D1, D2). -/
def Obligations.SampleWordsDecodeAsWritten : Prop :=
  decode specEncoding 0x9300000B#32 = .instr (.tmu ⟨.two, .noIndex, 11⟩) ∧
  decode specEncoding 0x10010064#32 = .instr (.cad ⟨.one, .ix0, 100⟩) ∧
  decode specEncoding 0x10008064#32 = .instr (.cad ⟨.one, .noIndex, 100⟩) ∧
  decode specEncoding 0x10F00064#32 = .instr (.cad ⟨.one, .noIndex, 100⟩) ∧
  decode specEncoding 0xA1001001#32 = .instr (.fst ⟨.two, .noIndex, 4097⟩) ∧
  decode specEncoding 0x43010000#32 = .instr (.jsb ⟨.one, .ix0, 0⟩) ∧
  decode specEncoding 0xD0000010#32 = .instr (.ior .noIndex 16) ∧
  decode specEncoding 0x608C012C#32 = .instr (.lix true .ix3 ⟨.one, .noIndex, 300⟩) ∧
  decode specEncoding 0x61080000#32 = .instr (.cix .ix2) ∧
  decode specEncoding 0x1F000000#32 = .noHandler 1 15

/-! ### The step -/

/-- In the Ready state, a word that decodes, in the machine's encoding, to an instruction is executed: the step is `exec` of it, on
the state as it stands (R111, R112, R113, R116). -/
def Obligations.StepRunsTheFetchedInstruction : Prop :=
  ∀ (s : State) (i : Instr), Ready s → decode s.cfg.encoding (s.memRead s.pb.num s.p.toNat) = .instr i → step s = exec i s

/-- The Halted state: a step changes nothing. The Ready state is `halted = false`, which Reset restores, clearing the registers
and keeping the memory (R110). -/
def Obligations.HaltedStepIsANoOp : Prop :=
  (∀ s : State, s.halted = true → s.refused = false → step s = .next s) ∧
  (∀ s : State, s.resetTransition.halted = false ∧ s.resetTransition.a = 0 ∧ SameMemory s s.resetTransition ∧
    (∀ r, s.resetTransition.getIx r = 0) ∧ s.resetTransition.p = 0)

/-- A word with no handler writes nothing except P and the counters (R94, R115). -/
def Obligations.WordWithNoHandlerOnlyAdvances : Prop :=
  ∀ (s : State) (cls : BitVec 3) (op : BitVec 4), Ready s → decode s.cfg.encoding s.fetchWord = .noHandler cls op →
    step s = .next { s with
      p := s.p + 1
      icount := (s.icount + 1) % 2 ^ s.cfg.counterBits
      ccount := (s.ccount + s.cfg.cyclesPerInstr) % 2 ^ s.cfg.counterBits }

/-- A refused step sets the mark and changes nothing else; a refused state has no further step (R21, R128). That the mark is set
by `stepMarked`, which otherwise leaves the step's next state, that `step` answers `afterRefusal` in a marked state, and that the
mark is tested before `halted`, is the model's reading (DEDUCED, log 10). -/
def Obligations.RefusedStepOnlySetsTheMark : Prop :=
  (∀ (s : State) (r : Refusal), step s = .refused r → stepMarked s = { s with refused := true }) ∧
  (∀ s t : State, step s = .next t → stepMarked s = t) ∧
  (∀ s : State, s.refused = true → step s = .refused .afterRefusal ∧ stepMarked s = s)

/-- Nothing faults, and exactly one situation is refused by an instruction: BIR of a word whose right half is neither 1 nor 2 (R127,
R190; that it is refused is the spec's decision D7). A step is refused so, or because its state carries the refused mark (DEDUCED,
log 10). -/
def Obligations.OnlyABadReturnWordIsRefused : Prop :=
  (∀ (s : State) (f : Fault), step s ≠ .fault f) ∧
  (∀ (i : Instr) (s : State) (r : Refusal), exec i s = .refused r ↔
    r = .birBadBank ∧ ∃ m, i = .bir m ∧ rightHalf (s.operand m) ≠ 1 ∧ rightHalf (s.operand m) ≠ 2) ∧
  (∀ (s : State) (r : Refusal), step s = .refused r ↔
    (s.refused = true ∧ r = .afterRefusal) ∨
    (Ready s ∧ r = .birBadBank ∧ ∃ m, decode s.cfg.encoding s.fetchWord = .instr (.bir m) ∧
      rightHalf (s.operand m) ≠ 1 ∧ rightHalf (s.operand m) ≠ 2))

/-- Every instruction but RESET that completes is counted once in `icount`, and its cost in `ccount`, both modulo
`2 ^ COUNTER_BITS` (R30, R31, R114). The width of 64 bits and the cost of 1 are the spec's decision D27. -/
def Obligations.CompletedInstructionsAreCounted : Prop :=
  ∀ (i : Instr) (s t : State), i ≠ .reset → exec i s = .next t →
    t.icount = (s.icount + 1) % 2 ^ s.cfg.counterBits ∧ t.ccount = (s.ccount + s.cfg.cyclesPerInstr) % 2 ^ s.cfg.counterBits

/-! ### Words and memory -/

/-- `split` and `join` are inverse on signed halves, and `join` keeps the low 16 bits of any integers (R10, R11). -/
def Obligations.SplitOfJoinIsTheHalves : Prop :=
  (∀ w : Word, split w = ((leftHalf w).toInt, (rightHalf w).toInt)) ∧
  (∀ l r : Int, ((join l r).toNat : Int) = (l % 65536) * 65536 + r % 65536) ∧
  (∀ l r : Int, -32768 ≤ l → l ≤ 32767 → -32768 ≤ r → r ≤ 32767 → split (join l r) = (l, r))

/-- The lanes never exchange bits: each half of the result is computed from the same halves of the operands (R14). -/
def Obligations.LanesNeverExchangeBits : Prop :=
  ∀ (op : Int → Int → Int) (a m : Word),
    split (lanes op a m) =
      ((BitVec.ofInt 16 (op (split a).1 (split m).1)).toInt, (BitVec.ofInt 16 (op (split a).2 (split m).2)).toInt)

/-- Every FRAC_ROUND of the model is the identity on integers and monotone (R13); truncation, the spec's default (D12), goes
toward zero. -/
def Obligations.RoundingIsIdentityOnIntegersAndMonotone : Prop :=
  (∀ (rule : FracRound) (n : Int), roundQuotient rule (n : ℚ).num (n : ℚ).den = n) ∧
  (∀ (rule : FracRound) (p q : ℚ), p ≤ q → roundQuotient rule p.num p.den ≤ roundQuotient rule q.num q.den) ∧
  (∀ q : ℚ, 0 ≤ q → roundQuotient .truncate q.num q.den = ⌊q⌋) ∧
  (∀ q : ℚ, q ≤ 0 → roundQuotient .truncate q.num q.den = ⌈q⌉)

/-- `from_fraction` clamps what lies outside [-1, 1) and undoes `to_fraction` exactly, under every rounding rule (R12, R13). -/
def Obligations.FromFractionClamps : Prop :=
  (∀ (rule : FracRound) (f : ℚ), 1 ≤ f → fromFraction rule f = 32767) ∧
  (∀ (rule : FracRound) (f : ℚ), f < -1 → fromFraction rule f = -32768) ∧
  (∀ (rule : FracRound) (v : Int), -32768 ≤ v → v ≤ 32767 → fromFraction rule (toFraction v) = v)

/-- `MemRead`: word `addr mod 65536` of bank 1, word `addr mod 4096` of bank 2, 0 for any other bank, for every cell never
written (one of which the memory lists nothing) and, at power-on, for every cell; the fetch is `MemRead(PB, P)` (R52). -/
def Obligations.MemReadByBank : Prop :=
  (∀ (s : State) (addr : Nat), s.memRead 1 addr = s.m1.readWord (addr % 65536) ∧ s.memRead 2 addr = s.m2.readWord (addr % 4096)) ∧
  (∀ (s : State) (bank addr : Nat), bank ≠ 1 → bank ≠ 2 → s.memRead bank addr = 0) ∧
  (∀ (m : Memory) (a : Nat), (∀ c ∈ m, c.1 < 4 * a ∨ 4 * a + 3 < c.1) → m.readWord a = 0) ∧
  (∀ bank addr : Nat, State.reset.memRead bank addr = 0) ∧
  (∀ s : State, s.fetchWord = s.memRead s.pb.num s.p.toNat)

/-- A read gives the word last written to the same cell, addresses being taken modulo the bank's capacity, and every other word
is as before; a write to a bank outside {1, 2} does nothing (R51, R53, R62; the last is the spec's decision D34). -/
def Obligations.MemReadAfterMemWrite : Prop :=
  (∀ (s : State) (b : Bank) (addr addr' : Nat) (v : Word), addr % capacity b.num = addr' % capacity b.num →
    (s.memWrite b.num addr v).memRead b.num addr' = v) ∧
  (∀ (s : State) (b : Bank) (bank addr addr' : Nat) (v : Word),
    (bank ≠ b.num ∨ addr' % capacity b.num ≠ addr % capacity b.num) →
      (s.memWrite b.num addr v).memRead bank addr' = s.memRead bank addr') ∧
  (∀ (s : State) (bank addr : Nat) (v : Word), bank ≠ 1 → bank ≠ 2 → s.memWrite bank addr v = s)

/-- Two canonical banks with equal words are equal data; so equal memories are equal states (the model's own form, log 1, over
R50 and R55). -/
def Obligations.EqualWordsAreEqualBanks : Prop :=
  ∀ (cap : Nat) (m n : Memory), m.wf cap = true → n.wf cap = true → (∀ a, a < cap → m.readWord a = n.readWord a) → m = n

/-- The effective address: the address field, plus the signed index register if one is selected, modulo 65536; the bank is the
instruction's; `ix[3]` is never an offset (R24, R87, R90). -/
def Obligations.EffectiveAddressWrapsAndKeepsTheBank : Prop :=
  ∀ (s : State) (m : MemRef),
    (s.ea m).bank = m.bank ∧
    ((s.ea m).addr.toNat : Int) =
      match m.x with
      | .noIndex => (m.addr.toNat : Int)
      | .ix0 => ((m.addr.toNat : Int) + s.ix0.toInt) % 65536
      | .ix1 => ((m.addr.toNat : Int) + s.ix1.toInt) % 65536
      | .ix2 => ((m.addr.toNat : Int) + s.ix2.toInt) % 65536

/-! ### Arithmetic -/

/-- CAD: `A` becomes the word at EA; only P and the counters change besides (R140, R141; that "clear" means 0 + M is the spec's
decision D10). -/
def Obligations.CadLoadsTheOperand : Prop :=
  ∀ (m : MemRef) (s : State), ∃ t, exec (.cad m) s = .next t ∧
    t.a = s.memRead (s.ea m).bank.num (s.ea m).addr.toNat ∧
    Advanced s t ∧ Counted s t ∧ SameIndex s t none ∧ SameMemory s t ∧ SameClock s t ∧ SameDevice s t ∧ SameMode s t

/-- ADD: two separate 16-bit sums that wrap; only P and the counters change besides (R140, R142). -/
def Obligations.AddWrapsInEachHalf : Prop :=
  ∀ (m : MemRef) (s : State), ∃ t, exec (.add m) s = .next t ∧
    leftHalf t.a = leftHalf s.a + leftHalf (s.memRead (s.ea m).bank.num (s.ea m).addr.toNat) ∧
    rightHalf t.a = rightHalf s.a + rightHalf (s.memRead (s.ea m).bank.num (s.ea m).addr.toNat) ∧
    Advanced s t ∧ Counted s t ∧ SameIndex s t none ∧ SameMemory s t ∧ SameClock s t ∧ SameDevice s t ∧ SameMode s t

/-- DIM: `A - M` in each half, wrapping; only P and the counters change besides (R140, R143; the operand order is the spec's
decision D11). -/
def Obligations.DimSubtractsInEachHalf : Prop :=
  ∀ (m : MemRef) (s : State), ∃ t, exec (.dim m) s = .next t ∧
    leftHalf t.a = leftHalf s.a - leftHalf (s.memRead (s.ea m).bank.num (s.ea m).addr.toNat) ∧
    rightHalf t.a = rightHalf s.a - rightHalf (s.memRead (s.ea m).bank.num (s.ea m).addr.toNat) ∧
    Advanced s t ∧ Counted s t ∧ SameIndex s t none ∧ SameMemory s t ∧ SameClock s t ∧ SameDevice s t ∧ SameMode s t

/-- TMU: the halves as fractions are multiplied as exact rationals and converted back, saturating, under the machine's
FRAC_ROUND, whichever it is; only P and the counters change besides (R12, R13, R140, R144). -/
def Obligations.TmuMultipliesFractions : Prop :=
  ∀ (m : MemRef) (s : State), ∃ t, exec (.tmu m) s = .next t ∧
    (let v := split (s.memRead (s.ea m).bank.num (s.ea m).addr.toNat)
     split t.a = (fromFraction s.cfg.fracRound (toFraction (split s.a).1 * toFraction v.1),
       fromFraction s.cfg.fracRound (toFraction (split s.a).2 * toFraction v.2))) ∧
    Advanced s t ∧ Counted s t ∧ SameIndex s t none ∧ SameMemory s t ∧ SameClock s t ∧ SameDevice s t ∧ SameMode s t

/-- TMU's lane under every rounding rule: (-1) * (-1) saturates, a zero gives zero, the order of the factors does not matter
(R144). Under truncation, the spec's default (D12), every other lane is the product divided by 32768 toward zero. -/
def Obligations.TmuLaneCorners : Prop :=
  (∀ rule : FracRound, tmul rule (-32768) (-32768) = 32767) ∧
  (∀ (rule : FracRound) (n : Int), tmul rule 0 n = 0 ∧ tmul rule n 0 = 0) ∧
  (∀ (rule : FracRound) (a m : Int), tmul rule a m = tmul rule m a) ∧
  (∀ a m : Half, ¬ (s16 a = -32768 ∧ s16 m = -32768) →
    tmul .truncate (s16 a) (s16 m) = (s16 a * s16 m).tdiv 32768)

/-- ADD and DIM wrap and never saturate; TMU saturates and never wraps (R142 to R145). That DIM computes A - M is the spec's decision
D11 (log 8), and TMU rounds by the machine's FRAC_ROUND, whichever it is (R13). -/
def Obligations.WrapAndSaturateAreKeptApart : Prop :=
  ∀ (m : MemRef) (s : State), ∃ t u v,
    exec (.add m) s = .next t ∧ exec (.dim m) s = .next u ∧ exec (.tmu m) s = .next v ∧
    (let a := split s.a
     let b := split (s.operand m)
     split t.a = (Int.bmod (a.1 + b.1) 65536, Int.bmod (a.2 + b.2) 65536) ∧
     split u.a = (Int.bmod (a.1 - b.1) 65536, Int.bmod (a.2 - b.2) 65536) ∧
     split v.a = (max (-32768) (min 32767 (roundQuotient s.cfg.fracRound (a.1 * b.1) 32768)),
       max (-32768) (min 32767 (roundQuotient s.cfg.fracRound (a.2 * b.2) 32768))))

/-! ### Stores -/

/-- LST, FST and STO: the word at EA takes the left half, both halves or the right half of `A`; every other word of memory, and
everything but P and the counters, is unchanged (R160 to R163; that a half keeps its position and the other half is kept is
the spec's decision D13). -/
def Obligations.StoresWriteOnlyTheWordAtEa : Prop :=
  ∀ (m : MemRef) (s : State),
    (∃ t, exec (.lst m) s = .next t ∧ StoredAt s t (s.ea m) (leftHalf s.a ++ rightHalf (s.readEa (s.ea m))) ∧
      Advanced s t ∧ Counted s t ∧ t.a = s.a ∧ SameIndex s t none ∧ SameClock s t ∧ SameDevice s t ∧ SameMode s t) ∧
    (∃ t, exec (.fst m) s = .next t ∧ StoredAt s t (s.ea m) s.a ∧
      Advanced s t ∧ Counted s t ∧ t.a = s.a ∧ SameIndex s t none ∧ SameClock s t ∧ SameDevice s t ∧ SameMode s t) ∧
    (∃ t, exec (.sto m) s = .next t ∧ StoredAt s t (s.ea m) (leftHalf (s.readEa (s.ea m)) ++ rightHalf s.a) ∧
      Advanced s t ∧ Counted s t ∧ t.a = s.a ∧ SameIndex s t none ∧ SameClock s t ∧ SameDevice s t ∧ SameMode s t)

/-- A word stored by FST in the cell the next step fetches from is the word it fetches (R66, R281). -/
def Obligations.StoreIsSeenByTheNextFetch : Prop :=
  ∀ (m : MemRef) (s t : State), exec (.fst m) s = .next t →
    (s.ea m).bank = s.pb → (s.ea m).addr.toNat % capacity s.pb.num = (s.p + 1).toNat % capacity s.pb.num →
    t.fetchWord = s.a

/-! ### Shifts -/

/-- SHL under both SHIFT_SCOPEs: each half, or the whole word, doubled and cut to its width; only P and the counters change
besides (R170, R171; the default scope is the spec's decision D14). -/
def Obligations.ShlShiftsByOnePlace : Prop :=
  ∀ s : State, ∃ t, exec .shl s = .next t ∧
    (match s.cfg.shiftScope with
     | .perHalf => t.a = (leftHalf s.a <<< 1) ++ (rightHalf s.a <<< 1)
     | .wholeWord => t.a = s.a <<< 1) ∧
    Advanced s t ∧ Counted s t ∧ SameIndex s t none ∧ SameMemory s t ∧ SameClock s t ∧ SameDevice s t ∧ SameMode s t

/-- SHR under both SHIFT_SCOPEs and both SHR_FILLs; only P and the counters change besides (R170, R172; the defaults are the
spec's decision D14). -/
def Obligations.ShrShiftsByOnePlace : Prop :=
  ∀ s : State, ∃ t, exec .shr s = .next t ∧
    (match s.cfg.shiftScope, s.cfg.shrFill with
     | .perHalf, .arithmetic => t.a = (leftHalf s.a).sshiftRight 1 ++ (rightHalf s.a).sshiftRight 1
     | .perHalf, .logical => t.a = (leftHalf s.a >>> 1) ++ (rightHalf s.a >>> 1)
     | .wholeWord, .arithmetic => t.a = s.a.sshiftRight 1
     | .wholeWord, .logical => t.a = s.a >>> 1) ∧
    Advanced s t ∧ Counted s t ∧ SameIndex s t none ∧ SameMemory s t ∧ SameClock s t ∧ SameDevice s t ∧ SameMode s t

/-! ### Control transfer -/

/-- BPX: P and PB become EA, unreduced; nothing but the counters changes besides (R180, R181; that P is not reduced is the
spec's decision D9). -/
def Obligations.BpxGoesToEa : Prop :=
  ∀ (m : MemRef) (s : State), ∃ t, exec (.bpx m) s = .next t ∧
    Transferred t (s.ea m).addr (s.ea m).bank ∧
    Counted s t ∧ t.a = s.a ∧ SameIndex s t none ∧ SameMemory s t ∧ SameClock s t ∧ SameDevice s t ∧ SameMode s t

/-- BLM: taken if bit 31 of `A` is 1, otherwise P advances; nothing but the counters changes besides (R113, R180, R182; the
tested bit is the spec's decision D15). -/
def Obligations.BlmBranchesOnTheSignBit : Prop :=
  ∀ (m : MemRef) (s : State), ∃ t, exec (.blm m) s = .next t ∧
    (if s.a.msb then Transferred t (s.ea m).addr (s.ea m).bank else Advanced s t) ∧
    Counted s t ∧ t.a = s.a ∧ SameIndex s t none ∧ SameMemory s t ∧ SameClock s t ∧ SameDevice s t ∧ SameMode s t

/-- BZE: taken if both halves of `A` are zero, otherwise P advances; nothing but the counters changes besides (R113, R180, R184;
that both halves are tested is the spec's decision D16). -/
def Obligations.BzeBranchesOnZero : Prop :=
  ∀ (m : MemRef) (s : State), ∃ t, exec (.bze m) s = .next t ∧
    (if leftHalf s.a = 0 ∧ rightHalf s.a = 0 then Transferred t (s.ea m).addr (s.ea m).bank else Advanced s t) ∧
    Counted s t ∧ t.a = s.a ∧ SameIndex s t none ∧ SameMemory s t ∧ SameClock s t ∧ SameDevice s t ∧ SameMode s t

/-- JSB: the word at EA becomes the return word (P + 1 left, the bank's number right), P and PB become EA + 1; every other word,
and everything but the counters, is unchanged (R180, R186; the stored offset is the spec's decision D6). -/
def Obligations.JsbStoresTheReturnWord : Prop :=
  ∀ (m : MemRef) (s : State), ∃ t, exec (.jsb m) s = .next t ∧
    StoredAt s t (s.ea m) ((s.p + 1) ++ BitVec.ofNat 16 s.pb.num) ∧
    Transferred t ((s.ea m).addr + 1) (s.ea m).bank ∧
    Counted s t ∧ t.a = s.a ∧ SameIndex s t none ∧ SameClock s t ∧ SameDevice s t ∧ SameMode s t

/-- BIR of a word whose right half is 1 or 2: P and PB become its halves; nothing but the counters changes besides (R180, R190). -/
def Obligations.BirGoesToTheReturnWord : Prop :=
  ∀ (m : MemRef) (s : State) (b : Bank), rightHalf (s.readEa (s.ea m)) = BitVec.ofNat 16 b.num →
    ∃ t, exec (.bir m) s = .next t ∧
      Transferred t (leftHalf (s.readEa (s.ea m))) b ∧
      Counted s t ∧ t.a = s.a ∧ SameIndex s t none ∧ SameMemory s t ∧ SameClock s t ∧ SameDevice s t ∧ SameMode s t

/-- A BIR of the slot that a JSB filled, whatever ran between as long as the slot's word stands, returns to the address after the
JSB, in its bank, and is never refused (R186, R190, R192; the stored offset is the spec's decision D6). -/
def Obligations.ReturnLandsAfterTheCall : Prop :=
  ∀ (call ret : MemRef) (s t u : State), exec (.jsb call) s = .next t →
    u.ea ret = s.ea call → u.readEa (s.ea call) = t.readEa (s.ea call) →
    ∃ v, exec (.bir ret) u = .next v ∧ v.p = s.p + 1 ∧ v.pb = s.pb

/-! ### I/O -/

/-- IOR at RTC_IO_ADDR gives RTC left and 0 right; at an unmapped address 0; at a device address the value the device supplies,
whatever it is, and only there a draw is taken; only P and the counters change besides (R200, R240, R241, R243). RTC_IO_ADDR
and DEVICE_ADDRS are the parameters of the state, whatever they are (R5). The bank being ignored is the
spec's decision D19. That the device's value is `Config.deviceDraw` of the counter `draws`, which grows by 1, is the model's form of
the spec's draw (DESIGN CHOICE, log 4). -/
def Obligations.IorReadsThePort : Prop :=
  ∀ (x : IndexSelect) (addr : Half) (s : State), ∃ t, exec (.ior x addr) s = .next t ∧
    (if s.eaAddr x addr = s.cfg.rtcIoAddr then t.a = s.rtc ++ (0 : Half) ∧ t.draws = s.draws
     else if s.eaAddr x addr ∈ s.cfg.deviceAddrs then t.a = Config.deviceDraw s.draws ∧ t.draws = s.draws + 1
     else t.a = 0 ∧ t.draws = s.draws) ∧
    t.outputs = s.outputs ∧
    Advanced s t ∧ Counted s t ∧ SameIndex s t none ∧ SameMemory s t ∧ SameClock s t ∧ SameMode s t

/-- IOW at a device address appends the event with the whole of `A`; at RTC_IO_ADDR and at an unmapped address it does nothing;
only P and the counters change besides (R202, R240, R242, R243; that RTC_IO_ADDR ignores it and that all of `A` is sent are
the spec's decisions D21, D23). -/
def Obligations.IowEmitsAnEvent : Prop :=
  ∀ (x : IndexSelect) (addr : Half) (s : State), ∃ t, exec (.iow x addr) s = .next t ∧
    (if s.eaAddr x addr ≠ s.cfg.rtcIoAddr ∧ s.eaAddr x addr ∈ s.cfg.deviceAddrs
     then t.outputs = s.outputs ++ [(s.eaAddr x addr, s.a)] else t.outputs = s.outputs) ∧
    t.draws = s.draws ∧ t.a = s.a ∧
    Advanced s t ∧ Counted s t ∧ SameIndex s t none ∧ SameMemory s t ∧ SameClock s t ∧ SameMode s t

/-! ### Index registers -/

/-- LIX: `ix[T]` becomes the right half of the word at EA, or with I = 1 the effective address itself, EA being computed from the
old index registers; the other three, and everything but P and the counters, are unchanged (R112, R210, R284; the forms are the
spec's decision D17). -/
def Obligations.LixLoadsTheTarget : Prop :=
  ∀ (imm : Bool) (r : IxReg) (m : MemRef) (s : State), ∃ t, exec (.lix imm r m) s = .next t ∧
    t.getIx r = (if imm then (s.ea m).addr else rightHalf (s.readEa (s.ea m))) ∧
    SameIndex s t (some r) ∧
    t.a = s.a ∧ Advanced s t ∧ Counted s t ∧ SameMemory s t ∧ SameClock s t ∧ SameDevice s t ∧ SameMode s t

/-- CIX: `ix[T]` becomes 0; the other three, and everything but P and the counters, are unchanged (R212; that CIX clears and does
not store is the spec's decision D18). -/
def Obligations.CixClearsTheTarget : Prop :=
  ∀ (r : IxReg) (s : State), ∃ t, exec (.cix r) s = .next t ∧
    t.getIx r = 0 ∧ SameIndex s t (some r) ∧
    t.a = s.a ∧ Advanced s t ∧ Counted s t ∧ SameMemory s t ∧ SameClock s t ∧ SameDevice s t ∧ SameMode s t

/-- `ix[3]` is never an address offset and no instruction reads it: two states that differ only in `ix[3]` step alike, to states
that differ at most in `ix[3]` (R24). Both take the same draws from a device (R118; DESIGN CHOICE, log 4). -/
def Obligations.IxThreeInfluencesNothing : Prop :=
  ∀ (s t : State) (v : Half), step s = .next t →
    ∃ t', step { s with ix3 := v } = .next t' ∧ { t' with ix3 := t.ix3 } = t

/-! ### Machine control and reset -/

/-- HALT sets `halted`, advances P and is counted; nothing else changes (R114, R220; that P advances is the spec's decision D24). -/
def Obligations.HaltSetsTheFlag : Prop :=
  ∀ s : State, ∃ t, exec .halt s = .next t ∧ t.halted = true ∧ Advanced s t ∧ Counted s t ∧
    t.a = s.a ∧ SameIndex s t none ∧ SameMemory s t ∧ SameClock s t ∧ SameDevice s t ∧ t.refused = s.refused ∧ t.cfg = s.cfg

/-- RESET leaves every register at its reset value, P not advanced and nothing counted, and the memory, the refused mark, the
device's side and the parameters as they were (R222, R270; PB, the counters and the clock are the spec's decisions D25, D26; the
device's side is log 5). -/
def Obligations.ResetInstructionClearsTheRegisters : Prop :=
  ∀ s : State, ∃ t, exec .reset s = .next t ∧ t = s.resetTransition ∧
    t.a = 0 ∧ (∀ r, t.getIx r = 0) ∧ t.p = 0 ∧ t.pb = .one ∧ t.halted = false ∧ t.icount = 0 ∧ t.ccount = 0 ∧
    t.rtc = 0 ∧ t.frac = 0 ∧ SameMemory s t ∧ SameDevice s t ∧ t.refused = s.refused ∧ t.cfg = s.cfg

/-- The host's `reset()` is the same transition, may come in either engine state, and applied twice is as applied once (R122,
R271). -/
def Obligations.ResetIsIdempotent : Prop :=
  ∀ s : State, hostAct .reset s = some s.resetTransition ∧ exec .reset s = .next s.resetTransition ∧
    s.resetTransition.resetTransition = s.resetTransition

/-- After power-on every memory cell reads 0, every register has the value Reset gives it and the engine is Ready (R272; the
register values are the spec's decision D28). -/
def Obligations.PowerOnState : Prop :=
  (∀ bank addr, State.reset.memRead bank addr = 0) ∧ State.reset.resetTransition = State.reset ∧ Ready State.reset ∧
  State.reset.pb = .one ∧ State.reset.p = 0

/-! ### Whole-machine rules -/

/-- The invariant holds after power-on (R20, R33, R55). -/
def Obligations.InvariantHoldsAtPowerOn : Prop := Inv State.reset

/-- Every step from a state that meets the invariant leads to one that does (R31, R33, R50, R237; the form of memory and the
parameters in the state are the model's own, log 1, log 2). -/
def Obligations.EveryStepKeepsTheInvariant : Prop :=
  ∀ s t : State, Inv s → step s = .next t → Inv t

/-- Every transaction of the host keeps the invariant too; so it holds at the end of every execution, that is of any sequence of
steps, runs, ticks, writes, settings of the pc and resets in any order (R33, R121, R235), and of every state reachable from
power-on. That the host's moves stand beside the step is the model's form (DESIGN CHOICE, log 9, log 14). -/
def Obligations.EveryHostActionKeepsTheInvariant : Prop :=
  (∀ (a : HostAction) (s t : State), Inv s → hostAct a s = some t → Inv t) ∧
  (∀ (ms : List Move) (s t : State), Inv s → Execution ms s t → Inv t) ∧
  (∀ t : State, Reachable t → Inv t)

/-- `halted` is set only by HALT, so by the host only through `step` or `run`, and cleared only by RESET, the instruction or the
host's call (R28). -/
def Obligations.HaltedIsSetByHaltAndClearedByReset : Prop :=
  (∀ s t : State, step s = .next t → s.halted = false → t.halted = true → decode s.cfg.encoding s.fetchWord = .instr .halt) ∧
  (∀ (a : HostAction) (s t : State), hostAct a s = some t → s.halted = false → t.halted = true → a = .step ∨ ∃ n, a = .run n) ∧
  (∀ s t : State, step s = .next t → s.halted = true → t.halted = true) ∧
  (∀ (a : HostAction) (s t : State), hostAct a s = some t → s.halted = true → t.halted = false → a = .reset) ∧
  (∀ s : State, hostAct .reset s = some s.resetTransition ∧ exec .reset s = .next s.resetTransition ∧
    s.resetTransition.halted = false) ∧
  (∀ s : State, ∃ t, exec .halt s = .next t ∧ t.halted = true)

/-- No step changes RTC or `frac`, except RESET, which clears them; `tick` acts in both engine states (R237; the last is the
spec's decision D36). So a tick may be placed before or after a step that performs neither RESET nor IOR, with the same result
(R121, R237). -/
def Obligations.StepsDoNotMoveTheClock : Prop :=
  (∀ s t : State, step s = .next t →
    SameClock s t ∨ (decode s.cfg.encoding s.fetchWord = .instr .reset ∧ t.rtc = 0 ∧ t.frac = 0)) ∧
  (∀ (s : State) (delta : ℚ), 0 ≤ delta → hostAct (.tick delta) s = some (s.tick delta)) ∧
  (∀ (s t : State) (delta : ℚ), step s = .next t →
    (∀ i, decode s.cfg.encoding s.fetchWord = .instr i → i.op ≠ .reset ∧ i.op ≠ .ior) →
    step (s.tick delta) = .next (t.tick delta))

/-- Memory is written by LST, FST, STO and JSB and by no other step (R34, R58, R140). -/
def Obligations.OnlyStoresAndJsbWriteMemory : Prop :=
  ∀ s t : State, step s = .next t →
    SameMemory s t ∨ ∃ m, decode s.cfg.encoding s.fetchWord = .instr (.lst m) ∨ decode s.cfg.encoding s.fetchWord = .instr (.fst m) ∨
      decode s.cfg.encoding s.fetchWord = .instr (.sto m) ∨ decode s.cfg.encoding s.fetchWord = .instr (.jsb m)

/-- `A` is written by CAD, ADD, DIM, TMU, SHL, SHR, IOR and RESET, and an index register by LIX, CIX and RESET, and by no other
step (R23, R24). -/
def Obligations.OnlyTheNamedInstructionsWriteRegisters : Prop :=
  ∀ s t : State, step s = .next t →
    (t.a = s.a ∨ ∃ i, decode s.cfg.encoding s.fetchWord = .instr i ∧
      i.op ∈ [Op.cad, .add, .dim, .tmu, .shl, .shr, .ior, .reset]) ∧
    (SameIndex s t none ∨ ∃ i, decode s.cfg.encoding s.fetchWord = .instr i ∧ i.op ∈ [Op.lix, .cix, .reset])

/-- The output history only grows, and only by an IOW of `A` to a device address (R242, R243; that it is kept by
Reset is the model's reading, DEDUCED, log 5). -/
def Obligations.OutputsGrowOnlyByIow : Prop :=
  ∀ s t : State, step s = .next t →
    t.outputs = s.outputs ∨
    ∃ x addr, decode s.cfg.encoding s.fetchWord = .instr (.iow x addr) ∧ ioKind s.cfg (s.eaAddr x addr) = .device ∧
      t.outputs = s.outputs ++ [(s.eaAddr x addr, s.a)]

/-- No transaction, a step among them, changes the parameters or clears the refused mark (R21; the parameters in the state are the
model's own, log 2). -/
def Obligations.ParametersStayAndTheMarkIsKept : Prop :=
  ∀ (a : HostAction) (s t : State), hostAct a s = some t → t.cfg = s.cfg ∧ (s.refused = true → t.refused = true)

/-! ### The host's interface -/

/-- One `tick`: RTC grows, modulo 65536, by the whole 1/32 seconds in the remainder held plus `delta`, the new remainder is what
is left of it and lies in [0, 1/32), and nothing else changes (R33, R235; exact arithmetic is the spec's decision D37). -/
def Obligations.TickAccountsForAllTime : Prop :=
  ∀ (s : State) (delta : ℚ), 0 ≤ s.frac → 0 ≤ delta →
    ∃ (t : State) (k : Nat), hostAct (.tick delta) s = some t ∧
      t.rtc = s.rtc + BitVec.ofNat 16 k ∧ (k : ℚ) / 32 + t.frac = s.frac + delta ∧ 0 ≤ t.frac ∧ t.frac < 1 / 32 ∧
      { t with rtc := s.rtc, frac := s.frac } = s

/-- Ticks add up: any sequence of them moves the clock as one tick of their sum (R236). -/
def Obligations.TicksAddUp : Prop :=
  ∀ (s : State) (deltas : List ℚ), 0 ≤ s.frac → s.frac < 1 / 32 → (∀ d ∈ deltas, 0 ≤ d) →
    deltas.foldl State.tick s = s.tick deltas.sum

/-- `run(max_steps)`: while not stopped it executes steps, the first of them as `step` says, at most `max_steps` of them and fewer
only if it stops; halted or refused, it returns 0 and changes nothing; a run is its first steps followed by a run from there; and
it leaves what the same number of `step()` calls leaves (R119). The mark that stops it is set by `stepMarked` (DEDUCED, log 10), and
the bound is a natural number, of 64 bits for the host (DESIGN CHOICE, log 11). -/
def Obligations.RunExecutesUpToItsBound : Prop :=
  (∀ s : State, s.stopped = false → runFor 1 s = (stepMarked s, 1)) ∧
  (∀ s t : State, s.stopped = false → step s = .next t → runFor 1 s = (t, 1)) ∧
  (∀ (n : Nat) (s : State), (s.halted = true ∨ s.refused = true) → runFor n s = (s, 0)) ∧
  (∀ (n : Nat) (s : State), (runFor n s).2 ≤ n ∧ ((runFor n s).2 < n → (runFor n s).1.stopped = true)) ∧
  (∀ (m n : Nat) (s : State), runFor (m + n) s =
    ((runFor n (runFor m s).1).1, (runFor m s).2 + (runFor n (runFor m s).1).2)) ∧
  (∀ (n : Nat) (s : State), Execution (List.replicate (runFor n s).2 (.act .step)) s (runFor n s).1) ∧
  (∀ (n : BitVec 64) (s : State), hostAct (.run n) s = some (runFor n.toNat s).1)

/-- `BPX` to its own address never ends: `run(None)` does not return (R181, R285). -/
def Obligations.SelfBranchNeverEnds : Prop :=
  ∀ (s : State) (m : MemRef), Ready s → decode s.cfg.encoding s.fetchWord = .instr (.bpx m) → s.ea m = ⟨s.pb, s.p⟩ →
    ∀ (t : State) (n : Nat), ¬ RunReturns s t n

/-- Running through memory that was never written never ends: P sweeps the bank, one word a step, and wraps (R94, R285), whenever
the zero word has no handler, as in the spec's encoding (D2). -/
def Obligations.EmptyMemoryIsSweptWithoutEnd : Prop :=
  (∃ cls op, decode specEncoding 0 = .noHandler cls op) ∧
  ∀ (s : State) (n : Nat), Ready s → (∃ cls op, decode s.cfg.encoding 0 = .noHandler cls op) →
    (∀ addr, s.memRead s.pb.num addr = 0) →
    (runFor n s).2 = n ∧ (runFor n s).1.p = s.p + BitVec.ofNat 16 n ∧ (runFor n s).1.pb = s.pb ∧
      (runFor n s).1.stopped = false

/-- The host's writes, `set_pc` and inspection (R123, R124, R125, R126): a write is `MemWrite` of the low 32 bits and leaves
everything but memory as it was, `halted` among it; `set_pc` sets P and PB and nothing else, and is no move outside 0..65535 and
{1, 2} (the spec's decision D30); the inspection surface shows A, its halves, the index registers, P, the bank's number, `halted`,
the counters and RTC as they are, and a read is `MemRead`; a negative tick is no move (D29). The forms of the arguments are the
model's (DESIGN CHOICE, log 14). -/
def Obligations.HostTransactionsAct : Prop :=
  (∀ (s : State) (bank addr : Nat) (v : Int),
    hostAct (.write bank addr v) s = some (s.memWrite bank addr (BitVec.ofInt 32 v)) ∧
    { s.memWrite bank addr (BitVec.ofInt 32 v) with m1 := s.m1, m2 := s.m2 } = s) ∧
  (∀ (s : State) (p : Half) (b : Bank), hostAct (.setPc p.toNat b.num) s = some { s with p := p, pb := b }) ∧
  (∀ (s : State) (p bank : Nat), (65536 ≤ p ∨ (bank ≠ 1 ∧ bank ≠ 2)) → hostAct (.setPc p bank) s = none) ∧
  (∀ (s : State) (delta : ℚ), delta < 0 → hostAct (.tick delta) s = none) ∧
  (∀ (s : State) (bank addr : Nat), s.hostRead bank addr = s.memRead bank addr) ∧
  (∀ s : State, s.inspect.accumulator = s.a ∧ s.inspect.halves = ((leftHalf s.a).toInt, (rightHalf s.a).toInt) ∧
    s.inspect.ix0 = s.getIx .ix0 ∧ s.inspect.ix1 = s.getIx .ix1 ∧ s.inspect.ix2 = s.getIx .ix2 ∧ s.inspect.ix3 = s.getIx .ix3 ∧
    s.inspect.p = s.p ∧ s.inspect.bank = s.pb.num ∧ s.inspect.halted = s.halted ∧
    s.inspect.icount = s.icount ∧ s.inspect.ccount = s.ccount ∧ s.inspect.rtc = s.rtc)

/-- Statements whose operands are in range assemble to exactly the encoder's word, ignored bits 0, of the instruction named, with
its bank, index and address, and the word decodes to it: the memory and branch instructions, LIX in both forms, CIX, and those with
no operand; IOR and IOW likewise, with the bank written as B, which the decoder ignores. A literal `#n` is the word `join(0, n)` at
the address chosen for it, legal where an operand is read and refused elsewhere. An address above 32767, a bank other than 1 and 2, a
k outside 1..3, a T outside 0..3, and an operation in a form it does not have are refused. WORD and NOP place their words, and
NOP's has no handler (R88, R97 to R101). Syntax and literals are the spec's decisions D32, D38, the tables D1, D2, the ignored bank
D19; and statements as data, a literal's place given, and the bank prefix before the operands of IOW and LIX are the model's choice
(DESIGN CHOICE, log 13). -/
def Obligations.AssemblerEncodesOrRefuses : Prop :=
  (∀ (e : Encoding) (lit : Nat), e.valid = true →
    (∀ (b : Bank) (addr : Half), addrFits addr = true →
      ∀ q ∈ [(none, IndexSelect.noIndex), (some 1, .ix0), (some 2, .ix1), (some 3, .ix2)],
        (∀ p ∈ [(Op.cad, Instr.cad), (.add, .add), (.dim, .dim), (.tmu, .tmu), (.lst, .lst), (.fst, .fst), (.sto, .sto),
            (.bpx, .bpx), (.blm, .blm), (.bze, .bze), (.jsb, .jsb), (.bir, .bir)],
          (assemble e lit (.onAddress p.1 (.address b.num addr.toNat q.1))).runsAs e (p.2 ⟨b, q.2, addr⟩)) ∧
        (∀ p ∈ [(Op.ior, Instr.ior), (.iow, .iow)], ∃ w,
          w = encode e (p.2 q.2 addr) ||| putField b.bit e.layout.bLo ∧
          assemble e lit (.onAddress p.1 (.address b.num addr.toNat q.1)) = .word w ∧ decode e w = .instr (p.2 q.2 addr)) ∧
        (∀ t ∈ [(0, IxReg.ix0), (1, .ix1), (2, .ix2), (3, .ix3)],
          (assemble e lit (.lixMemory t.1 (.address b.num addr.toNat q.1))).runsAs e (.lix false t.2 ⟨b, q.2, addr⟩) ∧
          (assemble e lit (.lixImmediate t.1 b.num addr.toNat q.1)).runsAs e (.lix true t.2 ⟨b, q.2, addr⟩))) ∧
    (∀ p ∈ [(Op.shl, Instr.shl), (.shr, .shr), (.halt, .halt), (.reset, .reset)], (assemble e lit (.bare p.1)).runsAs e p.2) ∧
    (∀ t ∈ [(0, IxReg.ix0), (1, .ix1), (2, .ix2), (3, .ix3)], (assemble e lit (.cix t.1)).runsAs e (.cix t.2)) ∧
    (∀ n : Int, lit ≤ 32767 →
      (∀ p ∈ [(Op.cad, Instr.cad), (.add, .add), (.dim, .dim), (.tmu, .tmu)], ∃ w,
        w = encode e (p.2 ⟨.one, .noIndex, BitVec.ofNat 16 lit⟩) ∧
        assemble e lit (.onAddress p.1 (.literal n)) = .withLiteral w ((0 : Half) ++ BitVec.ofInt 16 n) ∧
        decode e w = .instr (p.2 ⟨.one, .noIndex, BitVec.ofNat 16 lit⟩)) ∧
      (∀ t ∈ [(0, IxReg.ix0), (1, .ix1), (2, .ix2), (3, .ix3)], ∃ w,
        w = encode e (.lix false t.2 ⟨.one, .noIndex, BitVec.ofNat 16 lit⟩) ∧
        assemble e lit (.lixMemory t.1 (.literal n)) = .withLiteral w ((0 : Half) ++ BitVec.ofInt 16 n) ∧
        decode e w = .instr (.lix false t.2 ⟨.one, .noIndex, BitVec.ofNat 16 lit⟩)))) ∧
  (∀ (e : Encoding) (lit : Nat),
    (∀ (n : Int) (o : Op), o ∉ [Op.cad, .add, .dim, .tmu] → (assemble e lit (.onAddress o (.literal n))).isRefused) ∧
    (∀ n : Int, 32767 < lit → (∀ o, (assemble e lit (.onAddress o (.literal n))).isRefused) ∧
      (∀ t, (assemble e lit (.lixMemory t (.literal n))).isRefused)) ∧
    (∀ (bank addr : Nat) (k : Option Nat), 32767 < addr ∨ (bank ≠ 1 ∧ bank ≠ 2) ∨ (∃ n, k = some n ∧ (n = 0 ∨ 3 < n)) →
      (∀ o, (assemble e lit (.onAddress o (.address bank addr k))).isRefused) ∧
      (∀ t, (assemble e lit (.lixMemory t (.address bank addr k))).isRefused) ∧
      (∀ t, (assemble e lit (.lixImmediate t bank addr k)).isRefused)) ∧
    (∀ t : Nat, 3 < t → (∀ arg, (assemble e lit (.lixMemory t arg)).isRefused) ∧
      (∀ bank addr k, (assemble e lit (.lixImmediate t bank addr k)).isRefused) ∧ (assemble e lit (.cix t)).isRefused) ∧
    (∀ o ∈ [Op.shl, .shr, .lix, .cix, .halt, .reset], ∀ arg, assemble e lit (.onAddress o arg) = .refused .wrongForm) ∧
    (∀ o ∉ [Op.shl, .shr, .halt, .reset], assemble e lit (.bare o) = .refused .wrongForm) ∧
    (∀ l r : Int, assemble e lit (.wordHalves l r) = .word (join l r)) ∧
    (∀ n : Int, assemble e lit (.word n) = .word (BitVec.ofInt 32 n)) ∧
    assemble e lit .nop = .word 0) ∧
  (∃ cls op, decode specEncoding 0 = .noHandler cls op)
end

