-- ==== Sys2Proof/Laws/Decode.lean ====
section
/-! SUPPORT. The decoder on an encoder's word: each field comes back (30_encoding.md R80, R98). -/

namespace Sys2Proof

/-- One bit of the word of given fields. -/
theorem getLsbD_putField {n : Nat} (v : BitVec n) (lo i : Nat) :
    (putField v lo).getLsbD i = (decide (i < 32) && (decide (lo ≤ i) && v.getLsbD (i - lo))) := by
  simp only [putField, BitVec.getLsbD_shiftLeft, BitVec.getLsbD_setWidth]
  by_cases h1 : i < 32
  · have h3 : i - lo < 32 := by omega
    by_cases h2 : i < lo
    · simp [h1, h2, h3]
    · simp [h1, h2, h3, show lo ≤ i by omega]
  · simp [h1]

/-- A field's own bit, at its place in the word. -/
theorem getLsbD_putField_own {n lo i : Nat} (v : BitVec n) (h : lo + n ≤ 32) (hi : i < n) :
    (putField v lo).getLsbD (lo + i) = v.getLsbD i := by
  rw [getLsbD_putField]
  simp [show lo + i < 32 by omega, -BitVec.getLsbD_eq_getElem]

/-- A bit of the word in the place of another field is 0. -/
theorem getLsbD_putField_apart {n n' lo lo' i : Nat} (v : BitVec n') (h : lo + n ≤ lo' ∨ lo' + n' ≤ lo) (hi : i < n) :
    (putField v lo').getLsbD (lo + i) = false := by
  rw [getLsbD_putField]
  rcases h with h | h
  · simp [show ¬ lo' ≤ lo + i by omega]
  · simp [BitVec.getLsbD_of_ge v (lo + i - lo') (by omega)]

@[simp] theorem Bank.ofBit_bit (b : Bank) : Bank.ofBit b.bit = b := by cases b <;> rfl

@[simp] theorem IndexSelect.ofBits_bits (x : IndexSelect) : IndexSelect.ofBits x.bits = x := by cases x <;> rfl

@[simp] theorem IxReg.ofBits_bits (t : IxReg) : IxReg.ofBits t.bits = t := by cases t <;> rfl

/-- Decoding the fields of an encoded record gives the record, in every layout whose fields lie apart (R89, R98). -/
theorem decodeFields_encodeFields {l : EncLayout} (hl : l.valid = true) (f : Fields) :
    decodeFields l (encodeFields l f) = f := by
  have field : ∀ (lo n : Nat) (v : BitVec n),
      (∀ i, i < n → (encodeFields l f).getLsbD (lo + i) = v.getLsbD i) → getField (encodeFields l f) lo n = v := by
    intro lo n v h
    apply BitVec.eq_of_getLsbD_eq
    intro i hi
    simp [getField, hi, h i hi]
  simp only [EncLayout.valid, EncLayout.fields, List.all_cons, List.all_nil, List.pairwise_cons, List.mem_cons,
    Bool.and_eq_true, decide_eq_true_eq, forall_eq_or_imp, List.not_mem_nil, false_implies, implies_true, and_true,
    List.Pairwise.nil] at hl
  obtain ⟨⟨wb, wc, wo, wi, wt, wx, ws, wa⟩, ⟨bc, bo, bi, bt, bx, bs, ba⟩, ⟨co, ci, ct, cx, cs, ca⟩, ⟨oi, ot, ox, os, oa⟩, ⟨it, ix, is, ia⟩, ⟨tx, ts, ta⟩, ⟨xs, xa⟩, sa⟩ := hl
  have hb : getField (encodeFields l f) l.bLo 1 = f.bank.bit := field _ _ _ fun j hj => by
    simp only [encodeFields, BitVec.getLsbD_or, Bool.or_false,
      getLsbD_putField_own _ wb hj, getLsbD_putField_apart _ bc hj, getLsbD_putField_apart _ bo hj, getLsbD_putField_apart _ bi hj,
      getLsbD_putField_apart _ bt hj, getLsbD_putField_apart _ bx hj, getLsbD_putField_apart _ bs hj, getLsbD_putField_apart _ ba hj]
  have hc : getField (encodeFields l f) l.classLo 3 = f.cls := field _ _ _ fun j hj => by
    simp only [encodeFields, BitVec.getLsbD_or, Bool.or_false, Bool.false_or,
      getLsbD_putField_apart _ bc.symm hj, getLsbD_putField_own _ wc hj, getLsbD_putField_apart _ co hj, getLsbD_putField_apart _ ci hj,
      getLsbD_putField_apart _ ct hj, getLsbD_putField_apart _ cx hj, getLsbD_putField_apart _ cs hj, getLsbD_putField_apart _ ca hj]
  have ho : getField (encodeFields l f) l.opLo 4 = f.op := field _ _ _ fun j hj => by
    simp only [encodeFields, BitVec.getLsbD_or, Bool.or_false, Bool.false_or,
      getLsbD_putField_apart _ bo.symm hj, getLsbD_putField_apart _ co.symm hj, getLsbD_putField_own _ wo hj, getLsbD_putField_apart _ oi hj,
      getLsbD_putField_apart _ ot hj, getLsbD_putField_apart _ ox hj, getLsbD_putField_apart _ os hj, getLsbD_putField_apart _ oa hj]
  have hi : getField (encodeFields l f) l.iLo 1 = BitVec.ofBool f.imm := field _ _ _ fun j hj => by
    simp only [encodeFields, BitVec.getLsbD_or, Bool.or_false, Bool.false_or,
      getLsbD_putField_apart _ bi.symm hj, getLsbD_putField_apart _ ci.symm hj, getLsbD_putField_apart _ oi.symm hj, getLsbD_putField_own _ wi hj,
      getLsbD_putField_apart _ it hj, getLsbD_putField_apart _ ix hj, getLsbD_putField_apart _ is hj, getLsbD_putField_apart _ ia hj]
  have ht : getField (encodeFields l f) l.tLo 2 = f.t.bits := field _ _ _ fun j hj => by
    simp only [encodeFields, BitVec.getLsbD_or, Bool.or_false, Bool.false_or,
      getLsbD_putField_apart _ bt.symm hj, getLsbD_putField_apart _ ct.symm hj, getLsbD_putField_apart _ ot.symm hj, getLsbD_putField_apart _ it.symm hj,
      getLsbD_putField_own _ wt hj, getLsbD_putField_apart _ tx hj, getLsbD_putField_apart _ ts hj, getLsbD_putField_apart _ ta hj]
  have hx : getField (encodeFields l f) l.xLo 2 = f.x.bits := field _ _ _ fun j hj => by
    simp only [encodeFields, BitVec.getLsbD_or, Bool.or_false, Bool.false_or,
      getLsbD_putField_apart _ bx.symm hj, getLsbD_putField_apart _ cx.symm hj, getLsbD_putField_apart _ ox.symm hj, getLsbD_putField_apart _ ix.symm hj,
      getLsbD_putField_apart _ tx.symm hj, getLsbD_putField_own _ wx hj, getLsbD_putField_apart _ xs hj, getLsbD_putField_apart _ xa hj]
  have hs : getField (encodeFields l f) l.sLo 1 = BitVec.ofBool f.s := field _ _ _ fun j hj => by
    simp only [encodeFields, BitVec.getLsbD_or, Bool.or_false, Bool.false_or,
      getLsbD_putField_apart _ bs.symm hj, getLsbD_putField_apart _ cs.symm hj, getLsbD_putField_apart _ os.symm hj, getLsbD_putField_apart _ is.symm hj,
      getLsbD_putField_apart _ ts.symm hj, getLsbD_putField_apart _ xs.symm hj, getLsbD_putField_own _ ws hj, getLsbD_putField_apart _ sa hj]
  have ha : getField (encodeFields l f) l.addrLo 15 = f.addr := field _ _ _ fun j hj => by
    simp only [encodeFields, BitVec.getLsbD_or, Bool.or_false, Bool.false_or,
      getLsbD_putField_apart _ ba.symm hj, getLsbD_putField_apart _ ca.symm hj, getLsbD_putField_apart _ oa.symm hj, getLsbD_putField_apart _ ia.symm hj,
      getLsbD_putField_apart _ ta.symm hj, getLsbD_putField_apart _ xa.symm hj, getLsbD_putField_apart _ sa.symm hj, getLsbD_putField_own _ wa hj]
  obtain ⟨bank, cls, op, imm, t, x, s, addr⟩ := f
  simp only [decodeFields, hb, hc, ho, hi, ht, hx, hs, ha, Bank.ofBit_bit, IndexSelect.ofBits_bits, IxReg.ofBits_bits]
  cases imm <;> cases s <;> rfl

/-- Where no two rows agree on `key`, the row found by its key is the row. -/
theorem find_of_pairwise {α β : Type} [DecidableEq β] (key : α → β) {l : List α} (hp : l.Pairwise (fun r r' => key r ≠ key r'))
    {r : α} (hr : r ∈ l) : l.find? (fun q => decide (key q = key r)) = some r := by
  induction l with
  | nil => cases hr
  | cons q l ih =>
    rw [List.pairwise_cons] at hp
    rcases List.mem_cons.mp hr with rfl | hr
    · simp
    · simp [hp.1 r hr, ih hp.2 hr]

theorem Op.mem_all (o : Op) : o ∈ Op.all := by cases o <;> decide

/-- In a valid map a row is found by its operation and by its pair (R85, R117). -/
theorem OpcodeMap.find_row {m : OpcodeMap} (hm : m.valid = true) {r : Op × BitVec 3 × BitVec 4} (hr : r ∈ m) :
    opcodeOf m r.1 = r.2 ∧ handlerOf m r.2.1 r.2.2 = some r.1 := by
  simp only [OpcodeMap.valid, Bool.and_eq_true, decide_eq_true_eq] at hm
  constructor
  · rw [opcodeOf, find_of_pairwise (·.1) (hm.2.imp (fun h => h.1)) hr]
  · rw [handlerOf, find_of_pairwise (·.2) (hm.2.imp (fun h => h.2)) hr]
    rfl

/-- The handler of an operation's own pair is the operation (R85). -/
theorem handlerOf_opcodeOf {m : OpcodeMap} (hm : m.valid = true) (o : Op) :
    handlerOf m (opcodeOf m o).1 (opcodeOf m o).2 = some o := by
  have h := hm
  simp only [OpcodeMap.valid, Bool.and_eq_true, List.all_eq_true, List.any_eq_true, decide_eq_true_eq] at h
  obtain ⟨r, hr, rfl⟩ := h.1 o o.mem_all
  rw [(m.find_row hm hr).1]
  exact (m.find_row hm hr).2

/-- An address that fits survives its 15-bit field (R80). -/
theorem setWidth_addr {addr : Half} (h : addrFits addr = true) : (addr.setWidth 15).setWidth 16 = addr := by
  unfold addrFits at h
  have h := of_decide_eq_true h
  apply BitVec.eq_of_toNat_eq
  simp only [BitVec.toNat_setWidth]
  omega

/-- A field of 15 bits fits (R89, R91). -/
theorem addrFits_setWidth (addr : BitVec 15) : addrFits (addr.setWidth 16) = true := by
  have := addr.isLt
  simp only [addrFits, BitVec.toNat_setWidth, decide_eq_true_eq]
  omega

/-- A pair with a handler is the pair of that operation (R85, R117). -/
theorem opcodeOf_of_handlerOf {m : OpcodeMap} (hm : m.valid = true) {cls : BitVec 3} {op : BitVec 4} {o : Op}
    (h : handlerOf m cls op = some o) : opcodeOf m o = (cls, op) := by
  unfold handlerOf at h
  obtain ⟨r, hr, rfl⟩ := Option.map_eq_some_iff.mp h
  rw [(m.find_row hm (List.mem_of_find?_eq_some hr)).1]
  simpa using List.find?_some hr

theorem Fields.op_toInstr (f : Fields) (o : Op) : (f.toInstr o).op = o := by cases o <;> rfl

theorem Fields.wellFormed_toInstr (f : Fields) (o : Op) : (f.toInstr o).wellFormed = true := by
  cases o <;> first | rfl | exact addrFits_setWidth _

/-- What a decoded instruction is made of (R89, R113). -/
theorem decode_instr {e : Encoding} {w : Word} {i : Instr} (h : decode e w = .instr i) :
    handlerOf e.opcodeMap (decodeFields e.layout w).cls (decodeFields e.layout w).op = some i.op ∧
    i = (decodeFields e.layout w).toInstr i.op := by
  unfold decode at h
  simp only at h
  split at h
  · rename_i o ho
    cases h
    rw [Fields.op_toInstr]
    exact ⟨ho, rfl⟩
  · cases h

/-- Two words that agree under a mask have the same field where the mask is all ones. -/
theorem getField_congr {w v mask : Word} (h : w &&& mask = v &&& mask) (lo n : Nat)
    (hm : ∀ i, i < n → mask.getLsbD (lo + i) = true) : getField w lo n = getField v lo n := by
  apply BitVec.eq_of_getLsbD_eq
  intro i hi
  have := congrArg (fun x => x.getLsbD (lo + i)) h
  simp only [BitVec.getLsbD_and, hm i hi, Bool.and_true] at this
  simp only [getField, BitVec.getLsbD_extractLsb', hi, this]

end Sys2Proof
end

