-- ==== Sys2Proof/Laws/Assembler.lean ====
section
/-! SUPPORT. What the assembler's shared operations answer: in range one word, out of range a refusal (30_encoding.md R97 to R101). -/

namespace Sys2Proof.Machine

/-- In range, an address operand gives the word of the fields made of it (R97, R98). -/
theorem asmAt_of_range (e : Encoding) (b : Bank) {addr : Half} (ha : addrFits addr = true) {k : Option Nat} {x : IndexSelect}
    (hk : asmIndex k = some x) (f : MemRef → Fields) :
    asmAt e b.num addr.toNat k f = .word (encodeFields e.layout (f ⟨b, x, addr⟩)) := by
  have hb : asmBank b.num = some b := by cases b <;> rfl
  have hr : addr.toNat ≤ 32767 := by
    have := of_decide_eq_true ha
    omega
  simp [asmAt, hb, hk, hr]

/-- A k outside 1..3 names no index register (R97). -/
theorem asmIndex_of_bad {n : Nat} (h : n = 0 ∨ 3 < n) : asmIndex (some n) = none := by
  unfold asmIndex
  split <;> first | rfl | (rename_i e; cases e; try omega)

/-- A bank other than 1 and 2 is none (R97). -/
theorem asmBank_of_bad {bank : Nat} (h : bank ≠ 1 ∧ bank ≠ 2) : asmBank bank = none := by
  unfold asmBank
  split
  · exact absurd rfl h.1
  · exact absurd rfl h.2
  · rfl

/-- Out of range in any part, an address operand is refused (R97). -/
theorem asmAt_refused (e : Encoding) (bank addr : Nat) (k : Option Nat) (f : MemRef → Fields)
    (h : 32767 < addr ∨ (bank ≠ 1 ∧ bank ≠ 2) ∨ ∃ n, k = some n ∧ (n = 0 ∨ 3 < n)) : (asmAt e bank addr k f).isRefused := by
  unfold asmAt
  split
  · exact ⟨_, rfl⟩
  · exact ⟨_, rfl⟩
  · rename_i b x hb hk
    rcases h with h | h | ⟨n, rfl, h⟩
    · rw [if_neg (by omega)]
      exact ⟨_, rfl⟩
    · rw [asmBank_of_bad h] at hb
      cases hb
    · rw [asmIndex_of_bad h] at hk
      cases hk

/-- A literal whose place is in range (R100). -/
theorem asmLiteral_of_range (e : Encoding) {lit : Nat} (h : lit ≤ 32767) (n : Int) (f : MemRef → Fields) :
    asmLiteral e lit n f =
      .withLiteral (encodeFields e.layout (f ⟨.one, .noIndex, BitVec.ofNat 16 lit⟩)) ((0 : Half) ++ BitVec.ofInt 16 n) := by
  simp [asmLiteral, asmAt, asmBank, asmIndex, h, join, trunc16]

/-- A literal whose place is out of range is refused. -/
theorem asmLiteral_refused (e : Encoding) {lit : Nat} (h : 32767 < lit) (n : Int) (f : MemRef → Fields) :
    (asmLiteral e lit n f).isRefused := by
  obtain ⟨r, hr⟩ := asmAt_refused e 1 lit none f (.inl h)
  exact ⟨r, by simp [asmLiteral, hr]⟩

/-- The bank of a word is its bit B (R81, R98). -/
theorem encodeFields_bank (l : EncLayout) (f : Fields) (b : Bank) (h : f.bank = .one) :
    encodeFields l { f with bank := b } = encodeFields l f ||| putField b.bit l.bLo := by
  apply BitVec.eq_of_getLsbD_eq
  intro i _
  have zero : (putField Bank.one.bit l.bLo).getLsbD i = false := by
    rw [getLsbD_putField]
    simp [Bank.bit]
  simp only [encodeFields, BitVec.getLsbD_or, h, zero]
  cases (putField b.bit l.bLo).getLsbD i <;> simp

end Sys2Proof.Machine
end

