-- ==== Sys2Proof/Laws/State.lean ====
section
/-! SUPPORT. One lemma per field per update of the state, so that no proof unfolds a record update. A field an update computes
has its own law in Laws/Ops.lean or Laws/Memory.lean. -/

namespace Sys2Proof.Machine

@[simp] theorem State.setAcc_a (s : State) (v : Word) : (s.setAcc v).a = v := rfl
@[simp] theorem State.setAcc_ix0 (s : State) (v : Word) : (s.setAcc v).ix0 = s.ix0 := rfl
@[simp] theorem State.setAcc_ix1 (s : State) (v : Word) : (s.setAcc v).ix1 = s.ix1 := rfl
@[simp] theorem State.setAcc_ix2 (s : State) (v : Word) : (s.setAcc v).ix2 = s.ix2 := rfl
@[simp] theorem State.setAcc_ix3 (s : State) (v : Word) : (s.setAcc v).ix3 = s.ix3 := rfl
@[simp] theorem State.setAcc_p (s : State) (v : Word) : (s.setAcc v).p = s.p := rfl
@[simp] theorem State.setAcc_pb (s : State) (v : Word) : (s.setAcc v).pb = s.pb := rfl
@[simp] theorem State.setAcc_halted (s : State) (v : Word) : (s.setAcc v).halted = s.halted := rfl
@[simp] theorem State.setAcc_icount (s : State) (v : Word) : (s.setAcc v).icount = s.icount := rfl
@[simp] theorem State.setAcc_ccount (s : State) (v : Word) : (s.setAcc v).ccount = s.ccount := rfl
@[simp] theorem State.setAcc_rtc (s : State) (v : Word) : (s.setAcc v).rtc = s.rtc := rfl
@[simp] theorem State.setAcc_frac (s : State) (v : Word) : (s.setAcc v).frac = s.frac := rfl
@[simp] theorem State.setAcc_m1 (s : State) (v : Word) : (s.setAcc v).m1 = s.m1 := rfl
@[simp] theorem State.setAcc_m2 (s : State) (v : Word) : (s.setAcc v).m2 = s.m2 := rfl
@[simp] theorem State.setAcc_refused (s : State) (v : Word) : (s.setAcc v).refused = s.refused := rfl
@[simp] theorem State.setAcc_outputs (s : State) (v : Word) : (s.setAcc v).outputs = s.outputs := rfl
@[simp] theorem State.setAcc_draws (s : State) (v : Word) : (s.setAcc v).draws = s.draws := rfl
@[simp] theorem State.setAcc_cfg (s : State) (v : Word) : (s.setAcc v).cfg = s.cfg := rfl

@[simp] theorem State.setIx_a (s : State) (r : IxReg) (v : Half) : (s.setIx r v).a = s.a := by cases r <;> rfl
@[simp] theorem State.setIx_p (s : State) (r : IxReg) (v : Half) : (s.setIx r v).p = s.p := by cases r <;> rfl
@[simp] theorem State.setIx_pb (s : State) (r : IxReg) (v : Half) : (s.setIx r v).pb = s.pb := by cases r <;> rfl
@[simp] theorem State.setIx_halted (s : State) (r : IxReg) (v : Half) : (s.setIx r v).halted = s.halted := by cases r <;> rfl
@[simp] theorem State.setIx_icount (s : State) (r : IxReg) (v : Half) : (s.setIx r v).icount = s.icount := by cases r <;> rfl
@[simp] theorem State.setIx_ccount (s : State) (r : IxReg) (v : Half) : (s.setIx r v).ccount = s.ccount := by cases r <;> rfl
@[simp] theorem State.setIx_rtc (s : State) (r : IxReg) (v : Half) : (s.setIx r v).rtc = s.rtc := by cases r <;> rfl
@[simp] theorem State.setIx_frac (s : State) (r : IxReg) (v : Half) : (s.setIx r v).frac = s.frac := by cases r <;> rfl
@[simp] theorem State.setIx_m1 (s : State) (r : IxReg) (v : Half) : (s.setIx r v).m1 = s.m1 := by cases r <;> rfl
@[simp] theorem State.setIx_m2 (s : State) (r : IxReg) (v : Half) : (s.setIx r v).m2 = s.m2 := by cases r <;> rfl
@[simp] theorem State.setIx_refused (s : State) (r : IxReg) (v : Half) : (s.setIx r v).refused = s.refused := by cases r <;> rfl
@[simp] theorem State.setIx_outputs (s : State) (r : IxReg) (v : Half) : (s.setIx r v).outputs = s.outputs := by cases r <;> rfl
@[simp] theorem State.setIx_draws (s : State) (r : IxReg) (v : Half) : (s.setIx r v).draws = s.draws := by cases r <;> rfl
@[simp] theorem State.setIx_cfg (s : State) (r : IxReg) (v : Half) : (s.setIx r v).cfg = s.cfg := by cases r <;> rfl

@[simp] theorem State.setPc_a (s : State) (p : Half) (b : Bank) : (s.setPc p b).a = s.a := rfl
@[simp] theorem State.setPc_ix0 (s : State) (p : Half) (b : Bank) : (s.setPc p b).ix0 = s.ix0 := rfl
@[simp] theorem State.setPc_ix1 (s : State) (p : Half) (b : Bank) : (s.setPc p b).ix1 = s.ix1 := rfl
@[simp] theorem State.setPc_ix2 (s : State) (p : Half) (b : Bank) : (s.setPc p b).ix2 = s.ix2 := rfl
@[simp] theorem State.setPc_ix3 (s : State) (p : Half) (b : Bank) : (s.setPc p b).ix3 = s.ix3 := rfl
@[simp] theorem State.setPc_p (s : State) (p : Half) (b : Bank) : (s.setPc p b).p = p := rfl
@[simp] theorem State.setPc_pb (s : State) (p : Half) (b : Bank) : (s.setPc p b).pb = b := rfl
@[simp] theorem State.setPc_halted (s : State) (p : Half) (b : Bank) : (s.setPc p b).halted = s.halted := rfl
@[simp] theorem State.setPc_icount (s : State) (p : Half) (b : Bank) : (s.setPc p b).icount = s.icount := rfl
@[simp] theorem State.setPc_ccount (s : State) (p : Half) (b : Bank) : (s.setPc p b).ccount = s.ccount := rfl
@[simp] theorem State.setPc_rtc (s : State) (p : Half) (b : Bank) : (s.setPc p b).rtc = s.rtc := rfl
@[simp] theorem State.setPc_frac (s : State) (p : Half) (b : Bank) : (s.setPc p b).frac = s.frac := rfl
@[simp] theorem State.setPc_m1 (s : State) (p : Half) (b : Bank) : (s.setPc p b).m1 = s.m1 := rfl
@[simp] theorem State.setPc_m2 (s : State) (p : Half) (b : Bank) : (s.setPc p b).m2 = s.m2 := rfl
@[simp] theorem State.setPc_refused (s : State) (p : Half) (b : Bank) : (s.setPc p b).refused = s.refused := rfl
@[simp] theorem State.setPc_outputs (s : State) (p : Half) (b : Bank) : (s.setPc p b).outputs = s.outputs := rfl
@[simp] theorem State.setPc_draws (s : State) (p : Half) (b : Bank) : (s.setPc p b).draws = s.draws := rfl
@[simp] theorem State.setPc_cfg (s : State) (p : Half) (b : Bank) : (s.setPc p b).cfg = s.cfg := rfl

@[simp] theorem State.count_a (s : State) : (s.count).a = s.a := rfl
@[simp] theorem State.count_ix0 (s : State) : (s.count).ix0 = s.ix0 := rfl
@[simp] theorem State.count_ix1 (s : State) : (s.count).ix1 = s.ix1 := rfl
@[simp] theorem State.count_ix2 (s : State) : (s.count).ix2 = s.ix2 := rfl
@[simp] theorem State.count_ix3 (s : State) : (s.count).ix3 = s.ix3 := rfl
@[simp] theorem State.count_p (s : State) : (s.count).p = s.p := rfl
@[simp] theorem State.count_pb (s : State) : (s.count).pb = s.pb := rfl
@[simp] theorem State.count_halted (s : State) : (s.count).halted = s.halted := rfl
@[simp] theorem State.count_icount (s : State) : (s.count).icount = (s.icount + 1) % 2 ^ s.cfg.counterBits := rfl
@[simp] theorem State.count_ccount (s : State) : (s.count).ccount = (s.ccount + s.cfg.cyclesPerInstr) % 2 ^ s.cfg.counterBits :=
  rfl
@[simp] theorem State.count_rtc (s : State) : (s.count).rtc = s.rtc := rfl
@[simp] theorem State.count_frac (s : State) : (s.count).frac = s.frac := rfl
@[simp] theorem State.count_m1 (s : State) : (s.count).m1 = s.m1 := rfl
@[simp] theorem State.count_m2 (s : State) : (s.count).m2 = s.m2 := rfl
@[simp] theorem State.count_refused (s : State) : (s.count).refused = s.refused := rfl
@[simp] theorem State.count_outputs (s : State) : (s.count).outputs = s.outputs := rfl
@[simp] theorem State.count_draws (s : State) : (s.count).draws = s.draws := rfl
@[simp] theorem State.count_cfg (s : State) : (s.count).cfg = s.cfg := rfl

@[simp] theorem State.markRefused_a (s : State) : (s.markRefused).a = s.a := rfl
@[simp] theorem State.markRefused_ix0 (s : State) : (s.markRefused).ix0 = s.ix0 := rfl
@[simp] theorem State.markRefused_ix1 (s : State) : (s.markRefused).ix1 = s.ix1 := rfl
@[simp] theorem State.markRefused_ix2 (s : State) : (s.markRefused).ix2 = s.ix2 := rfl
@[simp] theorem State.markRefused_ix3 (s : State) : (s.markRefused).ix3 = s.ix3 := rfl
@[simp] theorem State.markRefused_p (s : State) : (s.markRefused).p = s.p := rfl
@[simp] theorem State.markRefused_pb (s : State) : (s.markRefused).pb = s.pb := rfl
@[simp] theorem State.markRefused_halted (s : State) : (s.markRefused).halted = s.halted := rfl
@[simp] theorem State.markRefused_icount (s : State) : (s.markRefused).icount = s.icount := rfl
@[simp] theorem State.markRefused_ccount (s : State) : (s.markRefused).ccount = s.ccount := rfl
@[simp] theorem State.markRefused_rtc (s : State) : (s.markRefused).rtc = s.rtc := rfl
@[simp] theorem State.markRefused_frac (s : State) : (s.markRefused).frac = s.frac := rfl
@[simp] theorem State.markRefused_m1 (s : State) : (s.markRefused).m1 = s.m1 := rfl
@[simp] theorem State.markRefused_m2 (s : State) : (s.markRefused).m2 = s.m2 := rfl
@[simp] theorem State.markRefused_refused (s : State) : (s.markRefused).refused = true := rfl
@[simp] theorem State.markRefused_outputs (s : State) : (s.markRefused).outputs = s.outputs := rfl
@[simp] theorem State.markRefused_draws (s : State) : (s.markRefused).draws = s.draws := rfl
@[simp] theorem State.markRefused_cfg (s : State) : (s.markRefused).cfg = s.cfg := rfl

@[simp] theorem State.setHalted_a (s : State) : (s.setHalted).a = s.a := rfl
@[simp] theorem State.setHalted_ix0 (s : State) : (s.setHalted).ix0 = s.ix0 := rfl
@[simp] theorem State.setHalted_ix1 (s : State) : (s.setHalted).ix1 = s.ix1 := rfl
@[simp] theorem State.setHalted_ix2 (s : State) : (s.setHalted).ix2 = s.ix2 := rfl
@[simp] theorem State.setHalted_ix3 (s : State) : (s.setHalted).ix3 = s.ix3 := rfl
@[simp] theorem State.setHalted_p (s : State) : (s.setHalted).p = s.p := rfl
@[simp] theorem State.setHalted_pb (s : State) : (s.setHalted).pb = s.pb := rfl
@[simp] theorem State.setHalted_halted (s : State) : (s.setHalted).halted = true := rfl
@[simp] theorem State.setHalted_icount (s : State) : (s.setHalted).icount = s.icount := rfl
@[simp] theorem State.setHalted_ccount (s : State) : (s.setHalted).ccount = s.ccount := rfl
@[simp] theorem State.setHalted_rtc (s : State) : (s.setHalted).rtc = s.rtc := rfl
@[simp] theorem State.setHalted_frac (s : State) : (s.setHalted).frac = s.frac := rfl
@[simp] theorem State.setHalted_m1 (s : State) : (s.setHalted).m1 = s.m1 := rfl
@[simp] theorem State.setHalted_m2 (s : State) : (s.setHalted).m2 = s.m2 := rfl
@[simp] theorem State.setHalted_refused (s : State) : (s.setHalted).refused = s.refused := rfl
@[simp] theorem State.setHalted_outputs (s : State) : (s.setHalted).outputs = s.outputs := rfl
@[simp] theorem State.setHalted_draws (s : State) : (s.setHalted).draws = s.draws := rfl
@[simp] theorem State.setHalted_cfg (s : State) : (s.setHalted).cfg = s.cfg := rfl

@[simp] theorem State.resetTransition_a (s : State) : (s.resetTransition).a = 0 := rfl
@[simp] theorem State.resetTransition_ix0 (s : State) : (s.resetTransition).ix0 = 0 := rfl
@[simp] theorem State.resetTransition_ix1 (s : State) : (s.resetTransition).ix1 = 0 := rfl
@[simp] theorem State.resetTransition_ix2 (s : State) : (s.resetTransition).ix2 = 0 := rfl
@[simp] theorem State.resetTransition_ix3 (s : State) : (s.resetTransition).ix3 = 0 := rfl
@[simp] theorem State.resetTransition_p (s : State) : (s.resetTransition).p = 0 := rfl
@[simp] theorem State.resetTransition_pb (s : State) : (s.resetTransition).pb = .one := rfl
@[simp] theorem State.resetTransition_halted (s : State) : (s.resetTransition).halted = false := rfl
@[simp] theorem State.resetTransition_icount (s : State) : (s.resetTransition).icount = 0 := rfl
@[simp] theorem State.resetTransition_ccount (s : State) : (s.resetTransition).ccount = 0 := rfl
@[simp] theorem State.resetTransition_rtc (s : State) : (s.resetTransition).rtc = 0 := rfl
@[simp] theorem State.resetTransition_frac (s : State) : (s.resetTransition).frac = 0 := rfl
@[simp] theorem State.resetTransition_m1 (s : State) : (s.resetTransition).m1 = s.m1 := rfl
@[simp] theorem State.resetTransition_m2 (s : State) : (s.resetTransition).m2 = s.m2 := rfl
@[simp] theorem State.resetTransition_refused (s : State) : (s.resetTransition).refused = s.refused := rfl
@[simp] theorem State.resetTransition_outputs (s : State) : (s.resetTransition).outputs = s.outputs := rfl
@[simp] theorem State.resetTransition_draws (s : State) : (s.resetTransition).draws = s.draws := rfl
@[simp] theorem State.resetTransition_cfg (s : State) : (s.resetTransition).cfg = s.cfg := rfl

@[simp] theorem State.memWrite_a (s : State) (bank addr : Nat) (v : Word) : (s.memWrite bank addr v).a = s.a :=
  by unfold State.memWrite; split <;> rfl
@[simp] theorem State.memWrite_ix0 (s : State) (bank addr : Nat) (v : Word) : (s.memWrite bank addr v).ix0 = s.ix0 :=
  by unfold State.memWrite; split <;> rfl
@[simp] theorem State.memWrite_ix1 (s : State) (bank addr : Nat) (v : Word) : (s.memWrite bank addr v).ix1 = s.ix1 :=
  by unfold State.memWrite; split <;> rfl
@[simp] theorem State.memWrite_ix2 (s : State) (bank addr : Nat) (v : Word) : (s.memWrite bank addr v).ix2 = s.ix2 :=
  by unfold State.memWrite; split <;> rfl
@[simp] theorem State.memWrite_ix3 (s : State) (bank addr : Nat) (v : Word) : (s.memWrite bank addr v).ix3 = s.ix3 :=
  by unfold State.memWrite; split <;> rfl
@[simp] theorem State.memWrite_p (s : State) (bank addr : Nat) (v : Word) : (s.memWrite bank addr v).p = s.p :=
  by unfold State.memWrite; split <;> rfl
@[simp] theorem State.memWrite_pb (s : State) (bank addr : Nat) (v : Word) : (s.memWrite bank addr v).pb = s.pb :=
  by unfold State.memWrite; split <;> rfl
@[simp] theorem State.memWrite_halted (s : State) (bank addr : Nat) (v : Word) : (s.memWrite bank addr v).halted = s.halted :=
  by unfold State.memWrite; split <;> rfl
@[simp] theorem State.memWrite_icount (s : State) (bank addr : Nat) (v : Word) : (s.memWrite bank addr v).icount = s.icount :=
  by unfold State.memWrite; split <;> rfl
@[simp] theorem State.memWrite_ccount (s : State) (bank addr : Nat) (v : Word) : (s.memWrite bank addr v).ccount = s.ccount :=
  by unfold State.memWrite; split <;> rfl
@[simp] theorem State.memWrite_rtc (s : State) (bank addr : Nat) (v : Word) : (s.memWrite bank addr v).rtc = s.rtc :=
  by unfold State.memWrite; split <;> rfl
@[simp] theorem State.memWrite_frac (s : State) (bank addr : Nat) (v : Word) : (s.memWrite bank addr v).frac = s.frac :=
  by unfold State.memWrite; split <;> rfl
@[simp] theorem State.memWrite_refused (s : State) (bank addr : Nat) (v : Word) : (s.memWrite bank addr v).refused = s.refused :=
  by unfold State.memWrite; split <;> rfl
@[simp] theorem State.memWrite_outputs (s : State) (bank addr : Nat) (v : Word) : (s.memWrite bank addr v).outputs = s.outputs :=
  by unfold State.memWrite; split <;> rfl
@[simp] theorem State.memWrite_draws (s : State) (bank addr : Nat) (v : Word) : (s.memWrite bank addr v).draws = s.draws :=
  by unfold State.memWrite; split <;> rfl
@[simp] theorem State.memWrite_cfg (s : State) (bank addr : Nat) (v : Word) : (s.memWrite bank addr v).cfg = s.cfg :=
  by unfold State.memWrite; split <;> rfl

@[simp] theorem State.writeEa_a (s : State) (e : EffAddr) (v : Word) : (s.writeEa e v).a = s.a := State.memWrite_a _ _ _ _
@[simp] theorem State.writeEa_ix0 (s : State) (e : EffAddr) (v : Word) : (s.writeEa e v).ix0 = s.ix0 := State.memWrite_ix0 _ _ _ _
@[simp] theorem State.writeEa_ix1 (s : State) (e : EffAddr) (v : Word) : (s.writeEa e v).ix1 = s.ix1 := State.memWrite_ix1 _ _ _ _
@[simp] theorem State.writeEa_ix2 (s : State) (e : EffAddr) (v : Word) : (s.writeEa e v).ix2 = s.ix2 := State.memWrite_ix2 _ _ _ _
@[simp] theorem State.writeEa_ix3 (s : State) (e : EffAddr) (v : Word) : (s.writeEa e v).ix3 = s.ix3 := State.memWrite_ix3 _ _ _ _
@[simp] theorem State.writeEa_p (s : State) (e : EffAddr) (v : Word) : (s.writeEa e v).p = s.p := State.memWrite_p _ _ _ _
@[simp] theorem State.writeEa_pb (s : State) (e : EffAddr) (v : Word) : (s.writeEa e v).pb = s.pb := State.memWrite_pb _ _ _ _
@[simp] theorem State.writeEa_halted (s : State) (e : EffAddr) (v : Word) : (s.writeEa e v).halted = s.halted :=
  State.memWrite_halted _ _ _ _
@[simp] theorem State.writeEa_icount (s : State) (e : EffAddr) (v : Word) : (s.writeEa e v).icount = s.icount :=
  State.memWrite_icount _ _ _ _
@[simp] theorem State.writeEa_ccount (s : State) (e : EffAddr) (v : Word) : (s.writeEa e v).ccount = s.ccount :=
  State.memWrite_ccount _ _ _ _
@[simp] theorem State.writeEa_rtc (s : State) (e : EffAddr) (v : Word) : (s.writeEa e v).rtc = s.rtc := State.memWrite_rtc _ _ _ _
@[simp] theorem State.writeEa_frac (s : State) (e : EffAddr) (v : Word) : (s.writeEa e v).frac = s.frac :=
  State.memWrite_frac _ _ _ _
@[simp] theorem State.writeEa_refused (s : State) (e : EffAddr) (v : Word) : (s.writeEa e v).refused = s.refused :=
  State.memWrite_refused _ _ _ _
@[simp] theorem State.writeEa_outputs (s : State) (e : EffAddr) (v : Word) : (s.writeEa e v).outputs = s.outputs :=
  State.memWrite_outputs _ _ _ _
@[simp] theorem State.writeEa_draws (s : State) (e : EffAddr) (v : Word) : (s.writeEa e v).draws = s.draws :=
  State.memWrite_draws _ _ _ _
@[simp] theorem State.writeEa_cfg (s : State) (e : EffAddr) (v : Word) : (s.writeEa e v).cfg = s.cfg := State.memWrite_cfg _ _ _ _

@[simp] theorem State.afterIoRead_a (s : State) (addr : Half) : (s.afterIoRead addr).a = s.a :=
  by unfold State.afterIoRead; split <;> rfl
@[simp] theorem State.afterIoRead_ix0 (s : State) (addr : Half) : (s.afterIoRead addr).ix0 = s.ix0 :=
  by unfold State.afterIoRead; split <;> rfl
@[simp] theorem State.afterIoRead_ix1 (s : State) (addr : Half) : (s.afterIoRead addr).ix1 = s.ix1 :=
  by unfold State.afterIoRead; split <;> rfl
@[simp] theorem State.afterIoRead_ix2 (s : State) (addr : Half) : (s.afterIoRead addr).ix2 = s.ix2 :=
  by unfold State.afterIoRead; split <;> rfl
@[simp] theorem State.afterIoRead_ix3 (s : State) (addr : Half) : (s.afterIoRead addr).ix3 = s.ix3 :=
  by unfold State.afterIoRead; split <;> rfl
@[simp] theorem State.afterIoRead_p (s : State) (addr : Half) : (s.afterIoRead addr).p = s.p :=
  by unfold State.afterIoRead; split <;> rfl
@[simp] theorem State.afterIoRead_pb (s : State) (addr : Half) : (s.afterIoRead addr).pb = s.pb :=
  by unfold State.afterIoRead; split <;> rfl
@[simp] theorem State.afterIoRead_halted (s : State) (addr : Half) : (s.afterIoRead addr).halted = s.halted :=
  by unfold State.afterIoRead; split <;> rfl
@[simp] theorem State.afterIoRead_icount (s : State) (addr : Half) : (s.afterIoRead addr).icount = s.icount :=
  by unfold State.afterIoRead; split <;> rfl
@[simp] theorem State.afterIoRead_ccount (s : State) (addr : Half) : (s.afterIoRead addr).ccount = s.ccount :=
  by unfold State.afterIoRead; split <;> rfl
@[simp] theorem State.afterIoRead_rtc (s : State) (addr : Half) : (s.afterIoRead addr).rtc = s.rtc :=
  by unfold State.afterIoRead; split <;> rfl
@[simp] theorem State.afterIoRead_frac (s : State) (addr : Half) : (s.afterIoRead addr).frac = s.frac :=
  by unfold State.afterIoRead; split <;> rfl
@[simp] theorem State.afterIoRead_m1 (s : State) (addr : Half) : (s.afterIoRead addr).m1 = s.m1 :=
  by unfold State.afterIoRead; split <;> rfl
@[simp] theorem State.afterIoRead_m2 (s : State) (addr : Half) : (s.afterIoRead addr).m2 = s.m2 :=
  by unfold State.afterIoRead; split <;> rfl
@[simp] theorem State.afterIoRead_refused (s : State) (addr : Half) : (s.afterIoRead addr).refused = s.refused :=
  by unfold State.afterIoRead; split <;> rfl
@[simp] theorem State.afterIoRead_outputs (s : State) (addr : Half) : (s.afterIoRead addr).outputs = s.outputs :=
  by unfold State.afterIoRead; split <;> rfl
@[simp] theorem State.afterIoRead_cfg (s : State) (addr : Half) : (s.afterIoRead addr).cfg = s.cfg :=
  by unfold State.afterIoRead; split <;> rfl

@[simp] theorem State.ioWrite_a (s : State) (addr : Half) (v : Word) : (s.ioWrite addr v).a = s.a :=
  by unfold State.ioWrite; split <;> rfl
@[simp] theorem State.ioWrite_ix0 (s : State) (addr : Half) (v : Word) : (s.ioWrite addr v).ix0 = s.ix0 :=
  by unfold State.ioWrite; split <;> rfl
@[simp] theorem State.ioWrite_ix1 (s : State) (addr : Half) (v : Word) : (s.ioWrite addr v).ix1 = s.ix1 :=
  by unfold State.ioWrite; split <;> rfl
@[simp] theorem State.ioWrite_ix2 (s : State) (addr : Half) (v : Word) : (s.ioWrite addr v).ix2 = s.ix2 :=
  by unfold State.ioWrite; split <;> rfl
@[simp] theorem State.ioWrite_ix3 (s : State) (addr : Half) (v : Word) : (s.ioWrite addr v).ix3 = s.ix3 :=
  by unfold State.ioWrite; split <;> rfl
@[simp] theorem State.ioWrite_p (s : State) (addr : Half) (v : Word) : (s.ioWrite addr v).p = s.p :=
  by unfold State.ioWrite; split <;> rfl
@[simp] theorem State.ioWrite_pb (s : State) (addr : Half) (v : Word) : (s.ioWrite addr v).pb = s.pb :=
  by unfold State.ioWrite; split <;> rfl
@[simp] theorem State.ioWrite_halted (s : State) (addr : Half) (v : Word) : (s.ioWrite addr v).halted = s.halted :=
  by unfold State.ioWrite; split <;> rfl
@[simp] theorem State.ioWrite_icount (s : State) (addr : Half) (v : Word) : (s.ioWrite addr v).icount = s.icount :=
  by unfold State.ioWrite; split <;> rfl
@[simp] theorem State.ioWrite_ccount (s : State) (addr : Half) (v : Word) : (s.ioWrite addr v).ccount = s.ccount :=
  by unfold State.ioWrite; split <;> rfl
@[simp] theorem State.ioWrite_rtc (s : State) (addr : Half) (v : Word) : (s.ioWrite addr v).rtc = s.rtc :=
  by unfold State.ioWrite; split <;> rfl
@[simp] theorem State.ioWrite_frac (s : State) (addr : Half) (v : Word) : (s.ioWrite addr v).frac = s.frac :=
  by unfold State.ioWrite; split <;> rfl
@[simp] theorem State.ioWrite_m1 (s : State) (addr : Half) (v : Word) : (s.ioWrite addr v).m1 = s.m1 :=
  by unfold State.ioWrite; split <;> rfl
@[simp] theorem State.ioWrite_m2 (s : State) (addr : Half) (v : Word) : (s.ioWrite addr v).m2 = s.m2 :=
  by unfold State.ioWrite; split <;> rfl
@[simp] theorem State.ioWrite_refused (s : State) (addr : Half) (v : Word) : (s.ioWrite addr v).refused = s.refused :=
  by unfold State.ioWrite; split <;> rfl
@[simp] theorem State.ioWrite_draws (s : State) (addr : Half) (v : Word) : (s.ioWrite addr v).draws = s.draws :=
  by unfold State.ioWrite; split <;> rfl
@[simp] theorem State.ioWrite_cfg (s : State) (addr : Half) (v : Word) : (s.ioWrite addr v).cfg = s.cfg :=
  by unfold State.ioWrite; split <;> rfl

@[simp] theorem State.tick_a (s : State) (d : ℚ) : (s.tick d).a = s.a := rfl
@[simp] theorem State.tick_ix0 (s : State) (d : ℚ) : (s.tick d).ix0 = s.ix0 := rfl
@[simp] theorem State.tick_ix1 (s : State) (d : ℚ) : (s.tick d).ix1 = s.ix1 := rfl
@[simp] theorem State.tick_ix2 (s : State) (d : ℚ) : (s.tick d).ix2 = s.ix2 := rfl
@[simp] theorem State.tick_ix3 (s : State) (d : ℚ) : (s.tick d).ix3 = s.ix3 := rfl
@[simp] theorem State.tick_p (s : State) (d : ℚ) : (s.tick d).p = s.p := rfl
@[simp] theorem State.tick_pb (s : State) (d : ℚ) : (s.tick d).pb = s.pb := rfl
@[simp] theorem State.tick_halted (s : State) (d : ℚ) : (s.tick d).halted = s.halted := rfl
@[simp] theorem State.tick_icount (s : State) (d : ℚ) : (s.tick d).icount = s.icount := rfl
@[simp] theorem State.tick_ccount (s : State) (d : ℚ) : (s.tick d).ccount = s.ccount := rfl
@[simp] theorem State.tick_m1 (s : State) (d : ℚ) : (s.tick d).m1 = s.m1 := rfl
@[simp] theorem State.tick_m2 (s : State) (d : ℚ) : (s.tick d).m2 = s.m2 := rfl
@[simp] theorem State.tick_refused (s : State) (d : ℚ) : (s.tick d).refused = s.refused := rfl
@[simp] theorem State.tick_outputs (s : State) (d : ℚ) : (s.tick d).outputs = s.outputs := rfl
@[simp] theorem State.tick_draws (s : State) (d : ℚ) : (s.tick d).draws = s.draws := rfl
@[simp] theorem State.tick_cfg (s : State) (d : ℚ) : (s.tick d).cfg = s.cfg := rfl

/-- Reading an index register after writing one. -/
@[simp] theorem State.getIx_setIx (s : State) (r q : IxReg) (v : Half) :
    (s.setIx r v).getIx q = if q = r then v else s.getIx q := by
  cases r <;> cases q <;> rfl

@[simp] theorem State.getIx_setAcc (s : State) (v : Word) (q : IxReg) : (s.setAcc v).getIx q = s.getIx q := by
  cases q <;> simp [State.getIx]

@[simp] theorem State.getIx_setPc (s : State) (p : Half) (b : Bank) (q : IxReg) : (s.setPc p b).getIx q = s.getIx q := by
  cases q <;> simp [State.getIx]

@[simp] theorem State.getIx_count (s : State) (q : IxReg) : (s.count).getIx q = s.getIx q := by
  cases q <;> simp [State.getIx]

@[simp] theorem State.getIx_setHalted (s : State) (q : IxReg) : (s.setHalted).getIx q = s.getIx q := by
  cases q <;> simp [State.getIx]

@[simp] theorem State.getIx_writeEa (s : State) (e : EffAddr) (v : Word) (q : IxReg) : (s.writeEa e v).getIx q = s.getIx q := by
  cases q <;> simp [State.getIx]

@[simp] theorem State.getIx_afterIoRead (s : State) (addr : Half) (q : IxReg) : (s.afterIoRead addr).getIx q = s.getIx q := by
  cases q <;> simp [State.getIx]

@[simp] theorem State.getIx_ioWrite (s : State) (addr : Half) (v : Word) (q : IxReg) : (s.ioWrite addr v).getIx q = s.getIx q := by
  cases q <;> simp [State.getIx]

end Sys2Proof.Machine
end

