-- ==== Sys2Proof/Laws/Memory.lean ====
section
/-! SUPPORT. The laws of memory: what a read gives after a write, that writes keep the canonical form, and that equal contents
are equal data. -/

namespace Sys2Proof.Machine

theorem Memory.readByte_erase (m : Memory) (k j : Nat) :
    (m.erase k).readByte j = if j = k then 0#8 else m.readByte j := by
  induction m with
  | nil => simp [Memory.erase, Memory.readByte]
  | cons c rest ih =>
    obtain ⟨k', b⟩ := c
    by_cases h : k' = k <;> by_cases h2 : k' = j <;> by_cases h3 : j = k <;>
      simp_all [Memory.erase, Memory.readByte]

theorem Memory.readByte_erase_same (m : Memory) (k : Nat) : (m.erase k).readByte k = 0#8 := by
  simp [Memory.readByte_erase]

theorem Memory.readByte_insert (m : Memory) (k j : Nat) (v : Byte) (h : m.readByte k = 0#8 ∧ ∀ c ∈ m, c.1 ≠ k) :
    (m.insert k v).readByte j = if j = k then v else m.readByte j := by
  induction m with
  | nil =>
    by_cases h2 : k = j
    · simp [Memory.insert, Memory.readByte, h2]
    · simp [Memory.insert, Memory.readByte, h2, Ne.symm h2]
  | cons c rest ih =>
    obtain ⟨k', b⟩ := c
    obtain ⟨h0, hk⟩ := h
    have hne : k' ≠ k := hk (k', b) (by simp)
    have ih := ih ⟨by simpa [Memory.readByte, hne] using h0, fun c hc => hk c (by simp [hc])⟩
    by_cases hlt : k < k'
    · by_cases h2 : k = j
      · subst h2
        simp [Memory.insert, Memory.readByte, hlt]
      · simp [Memory.insert, Memory.readByte, hlt, h2, Ne.symm h2]
    · by_cases h2 : k' = j
      · subst h2
        simp [Memory.insert, Memory.readByte, hlt, hne]
      · simp [Memory.insert, Memory.readByte, hlt, h2, ih]

theorem Memory.key_mem_erase (m : Memory) (k : Nat) : ∀ c ∈ m.erase k, c.1 ≠ k := by
  induction m with
  | nil => simp [Memory.erase]
  | cons c rest ih =>
    obtain ⟨k', b⟩ := c
    by_cases h : k' = k
    · simpa [Memory.erase, h] using ih
    · simpa [Memory.erase, h] using ih

/-- A byte read after a byte written, in any memory. -/
theorem Memory.readByte_writeByte (m : Memory) (k j : Nat) (v : Byte) :
    (m.writeByte k v).readByte j = if j = k then v else m.readByte j := by
  unfold Memory.writeByte
  split
  · rename_i hv
    simp [Memory.readByte_erase, hv]
  · rw [Memory.readByte_insert _ _ _ _ ⟨Memory.readByte_erase_same m k, Memory.key_mem_erase m k⟩, Memory.readByte_erase]
    split <;> rfl

theorem bytes_of_word (v : Word) :
    v.extractLsb' 24 8 ++ v.extractLsb' 16 8 ++ v.extractLsb' 8 8 ++ v.extractLsb' 0 8 = v := by
  apply BitVec.eq_of_getLsbD_eq
  intro i hi
  simp only [BitVec.getLsbD_append, BitVec.getLsbD_extractLsb']
  by_cases h1 : i < 8
  · simp [h1]
  · by_cases h2 : i - 8 < 8
    · simp [h1, h2, show 8 + (i - 8) = i by omega]
    · by_cases h3 : i - 8 - 8 < 8
      · simp [h1, h2, h3, show 16 + (i - 8 - 8) = i by omega]
      · simp [h1, h2, h3, show 24 + (i - 8 - 8 - 8) = i by omega, show i - 8 - 8 - 8 < 8 by omega]

/-- A word read after a word written, in any memory (R52, R53). -/
theorem Memory.readWord_writeWord (m : Memory) (a b : Nat) (v : Word) :
    (m.writeWord a v).readWord b = if b = a then v else m.readWord b := by
  by_cases h : b = a
  · subst h
    simp [Memory.readWord, Memory.writeWord, Memory.readByte_writeByte, bytes_of_word]
  · simp only [Memory.readWord, Memory.writeWord, Memory.readByte_writeByte, if_neg h]
    repeat rw [if_neg (by omega)]

/-- An empty bank reads 0 (R55). -/
@[simp] theorem Memory.readWord_nil (a : Nat) : Memory.readWord [] a = 0#32 := by
  simp [Memory.readWord, Memory.readByte]

theorem Memory.wfFrom_mono {lo lo' hi : Nat} {m : Memory} (h : Memory.wfFrom lo hi m = true) (hle : lo' ≤ lo) :
    Memory.wfFrom lo' hi m = true := by
  cases m with
  | nil => rfl
  | cons c rest =>
    simp only [Memory.wfFrom, Bool.and_eq_true, decide_eq_true_eq] at h ⊢
    exact ⟨⟨⟨by omega, h.1.1.2⟩, h.1.2⟩, h.2⟩

theorem Memory.wfFrom_erase {lo hi : Nat} {m : Memory} (k : Nat) (h : Memory.wfFrom lo hi m = true) :
    Memory.wfFrom lo hi (m.erase k) = true := by
  induction m generalizing lo with
  | nil => rfl
  | cons c rest ih =>
    obtain ⟨k', b⟩ := c
    simp only [Memory.wfFrom, Bool.and_eq_true, decide_eq_true_eq] at h
    obtain ⟨⟨⟨h1, h2⟩, h3⟩, h4⟩ := h
    by_cases hk : k' = k
    · simp only [Memory.erase, hk, if_true]
      exact Memory.wfFrom_mono (ih h4) (by omega)
    · simp [Memory.erase, hk, Memory.wfFrom, h1, h2, h3, ih h4]

theorem Memory.wfFrom_insert {lo hi k : Nat} {v : Byte} {m : Memory} (h : Memory.wfFrom lo hi m = true)
    (hk : ∀ c ∈ m, c.1 ≠ k) (hlo : lo ≤ k) (hhi : k < hi) (hv : v ≠ 0#8) : Memory.wfFrom lo hi (m.insert k v) = true := by
  induction m generalizing lo with
  | nil => simp [Memory.insert, Memory.wfFrom, hlo, hhi, hv]
  | cons c rest ih =>
    obtain ⟨k', b⟩ := c
    have hne : k' ≠ k := hk (k', b) (by simp)
    simp only [Memory.wfFrom, Bool.and_eq_true, decide_eq_true_eq] at h
    obtain ⟨⟨⟨h1, h2⟩, h3⟩, h4⟩ := h
    by_cases hlt : k < k'
    · have : k + 1 ≤ k' := hlt
      simp [Memory.insert, hlt, Memory.wfFrom, hlo, hhi, hv, h2, h3, h4, this]
    · have := ih h4 (fun c hc => hk c (by simp [hc])) (by omega)
      simp [Memory.insert, hlt, Memory.wfFrom, h1, h2, h3, this]

/-- Writing a byte keeps the canonical form. -/
theorem Memory.wfFrom_writeByte {lo hi k : Nat} {v : Byte} {m : Memory} (h : Memory.wfFrom lo hi m = true)
    (hlo : lo ≤ k) (hhi : k < hi) : Memory.wfFrom lo hi (m.writeByte k v) = true := by
  unfold Memory.writeByte
  split
  · exact Memory.wfFrom_erase k h
  · exact Memory.wfFrom_insert (Memory.wfFrom_erase k h) (Memory.key_mem_erase m k) hlo hhi ‹_›

/-- Writing a word of the bank keeps the canonical form. -/
theorem Memory.wf_writeWord {cap a : Nat} {v : Word} {m : Memory} (h : m.wf cap = true) (ha : a < cap) :
    (m.writeWord a v).wf cap = true := by
  unfold Memory.wf Memory.writeWord at *
  exact Memory.wfFrom_writeByte (Memory.wfFrom_writeByte (Memory.wfFrom_writeByte (Memory.wfFrom_writeByte h (by omega) (by omega))
    (by omega) (by omega)) (by omega) (by omega)) (by omega) (by omega)

theorem Memory.readByte_below {lo hi k : Nat} {m : Memory} (h : Memory.wfFrom lo hi m = true) (hk : k < lo) :
    m.readByte k = 0#8 := by
  induction m generalizing lo with
  | nil => rfl
  | cons c rest ih =>
    obtain ⟨k', b⟩ := c
    simp only [Memory.wfFrom, Bool.and_eq_true, decide_eq_true_eq] at h
    have hne : k' ≠ k := by omega
    simpa [Memory.readByte, hne] using ih h.2 (by omega)

theorem Memory.readByte_above {lo hi k : Nat} {m : Memory} (h : Memory.wfFrom lo hi m = true) (hk : hi ≤ k) :
    m.readByte k = 0#8 := by
  induction m generalizing lo with
  | nil => rfl
  | cons c rest ih =>
    obtain ⟨k', b⟩ := c
    simp only [Memory.wfFrom, Bool.and_eq_true, decide_eq_true_eq] at h
    have hne : k' ≠ k := by omega
    simpa [Memory.readByte, hne] using ih h.2

/-- The four cells of a word, out of the word. -/
theorem Memory.bytes_of_readWord (m : Memory) (a : Nat) :
    (m.readWord a).extractLsb' 24 8 = m.readByte (4 * a) ∧ (m.readWord a).extractLsb' 16 8 = m.readByte (4 * a + 1) ∧
    (m.readWord a).extractLsb' 8 8 = m.readByte (4 * a + 2) ∧ (m.readWord a).extractLsb' 0 8 = m.readByte (4 * a + 3) := by
  refine ⟨?_, ?_, ?_, ?_⟩ <;>
  · apply BitVec.eq_of_getLsbD_eq
    intro i hi
    simp only [Memory.readWord, BitVec.getLsbD_extractLsb', BitVec.getLsbD_append]
    interval_cases i <;> simp

/-- Two memories in canonical form that read the same everywhere are the same list. -/
theorem Memory.eq_of_readByte {lo hi : Nat} {m n : Memory} (hm : Memory.wfFrom lo hi m = true)
    (hn : Memory.wfFrom lo hi n = true) (h : ∀ k, m.readByte k = n.readByte k) : m = n := by
  induction m generalizing n lo with
  | nil =>
    cases n with
    | nil => rfl
    | cons d rest' =>
      obtain ⟨k', b'⟩ := d
      simp only [Memory.wfFrom, Bool.and_eq_true, decide_eq_true_eq] at hn
      have := h k'
      simp [Memory.readByte] at this
      exact absurd this.symm hn.1.2
  | cons c rest ih =>
    obtain ⟨k, b⟩ := c
    cases n with
    | nil =>
      simp only [Memory.wfFrom, Bool.and_eq_true, decide_eq_true_eq] at hm
      have := h k
      simp [Memory.readByte] at this
      exact absurd this hm.1.2
    | cons d rest' =>
      obtain ⟨k', b'⟩ := d
      simp only [Memory.wfFrom, Bool.and_eq_true, decide_eq_true_eq] at hm hn
      have hkk : k = k' := by
        rcases Nat.lt_trichotomy k k' with hlt | heq | hgt
        · have h1 := h k
          have h2 := Memory.readByte_below hn.2 (show k < k' + 1 by omega)
          simp [Memory.readByte, show k' ≠ k by omega, h2] at h1
          exact absurd h1 hm.1.2
        · exact heq
        · have h1 := h k'
          have h2 := Memory.readByte_below hm.2 (show k' < k + 1 by omega)
          simp [Memory.readByte, show k ≠ k' by omega, h2] at h1
          exact absurd h1.symm hn.1.2
      subst hkk
      have hb : b = b' := by simpa [Memory.readByte] using h k
      subst hb
      have : rest = rest' := by
        apply ih hm.2 hn.2
        intro j
        by_cases hj : k = j
        · subst hj
          rw [Memory.readByte_below hm.2 (by omega), Memory.readByte_below hn.2 (by omega)]
        · simpa [Memory.readByte, hj] using h j
      rw [this]

/-- What a read gives after a write, for any banks and addresses (R51 to R53). -/
theorem State.memRead_memWrite (s : State) (bank bank' addr addr' : Nat) (v : Word) :
    (s.memWrite bank addr v).memRead bank' addr' =
      if bank' = bank ∧ 0 < capacity bank ∧ addr' % capacity bank = addr % capacity bank then v else s.memRead bank' addr' := by
  unfold State.memWrite
  split
  · unfold State.memRead
    split <;> simp_all [capacity, Memory.readWord_writeWord]
  · unfold State.memRead
    split <;> simp_all [capacity, Memory.readWord_writeWord]
  · rename_i h1 h2
    have : capacity bank = 0 := by
      unfold capacity
      split
      · exact absurd rfl h1
      · exact absurd rfl h2
      · rfl
    simp [this]

@[simp] theorem State.memRead_reset (bank addr : Nat) : State.reset.memRead bank addr = 0#32 := by
  unfold State.memRead
  split
  · exact Memory.readWord_nil _
  · exact Memory.readWord_nil _
  · rfl

/-- Two states with the same banks read the same. -/
theorem State.memRead_congr {s t : State} (h1 : t.m1 = s.m1) (h2 : t.m2 = s.m2) (bank addr : Nat) :
    t.memRead bank addr = s.memRead bank addr := by
  unfold State.memRead
  rw [h1, h2]

/-- A write keeps both banks in canonical form (R50, R53). -/
theorem State.memWrite_wf (s : State) (bank addr : Nat) (v : Word) (h1 : s.m1.wf 65536 = true) (h2 : s.m2.wf 4096 = true) :
    (s.memWrite bank addr v).m1.wf 65536 = true ∧ (s.memWrite bank addr v).m2.wf 4096 = true := by
  unfold State.memWrite
  split
  · exact ⟨Memory.wf_writeWord h1 (Nat.mod_lt _ (by decide)), h2⟩
  · exact ⟨h1, Memory.wf_writeWord h2 (Nat.mod_lt _ (by decide))⟩
  · exact ⟨h1, h2⟩

end Sys2Proof.Machine
end

