-- ==== Sys2Proof/Laws/Words.lean ====
section
/-! SUPPORT. Laws of the word helpers of 00_scope.md: halves, split and join, lanes, clamping and rounding. -/

namespace Sys2Proof.Machine

@[simp] theorem trunc16_s16 (h : Half) : trunc16 (s16 h) = h := by simp [trunc16, s16]

@[simp] theorem trunc16_u16 (h : Half) : trunc16 (u16 h) = h := by simp [trunc16, u16]

@[simp] theorem leftHalf_append (l r : Half) : leftHalf (l ++ r) = l := by
  apply BitVec.eq_of_getLsbD_eq
  intro i hi
  simp only [leftHalf, BitVec.getLsbD_extractLsb', BitVec.getLsbD_append]
  simp [hi]

@[simp] theorem rightHalf_append (l r : Half) : rightHalf (l ++ r) = r := by
  apply BitVec.eq_of_getLsbD_eq
  intro i hi
  simp only [rightHalf, BitVec.getLsbD_extractLsb', BitVec.getLsbD_append]
  simp [hi]

/-- A word is its two halves (R7). -/
theorem append_halves (w : Word) : leftHalf w ++ rightHalf w = w := by
  apply BitVec.eq_of_getLsbD_eq
  intro i hi
  simp only [leftHalf, rightHalf, BitVec.getLsbD_extractLsb', BitVec.getLsbD_append]
  by_cases h : i < 16
  · simp [h]
  · simp [h, show 16 + (i - 16) = i by omega, show i - 16 < 16 by omega]

/-- Two words with the same halves are the same word. -/
theorem word_ext {v w : Word} (hl : leftHalf v = leftHalf w) (hr : rightHalf v = rightHalf w) : v = w := by
  rw [← append_halves v, ← append_halves w, hl, hr]

@[simp] theorem leftHalf_join (l r : Int) : leftHalf (join l r) = trunc16 l := leftHalf_append _ _

@[simp] theorem rightHalf_join (l r : Int) : rightHalf (join l r) = trunc16 r := rightHalf_append _ _

/-- `join(split(w)) = w` (R141). -/
@[simp] theorem join_split (w : Word) : join (s16 (leftHalf w)) (s16 (rightHalf w)) = w := by
  simp [join, append_halves]

@[simp] theorem leftHalf_lanes (op : Int → Int → Int) (a m : Word) :
    leftHalf (lanes op a m) = trunc16 (op (s16 (leftHalf a)) (s16 (leftHalf m))) := leftHalf_join _ _

@[simp] theorem rightHalf_lanes (op : Int → Int → Int) (a m : Word) :
    rightHalf (lanes op a m) = trunc16 (op (s16 (rightHalf a)) (s16 (rightHalf m))) := rightHalf_join _ _

/-- A lane sum is the wrapping 16-bit sum (R142). -/
theorem trunc16_add (a m : Half) : trunc16 (s16 a + s16 m) = a + m := by
  simp [trunc16, s16, BitVec.ofInt_add]

/-- A lane difference is the wrapping 16-bit difference (R143). -/
theorem trunc16_sub (a m : Half) : trunc16 (s16 a - s16 m) = a - m := by
  apply BitVec.eq_of_toInt_eq
  simp [trunc16, s16, BitVec.toInt_ofInt, BitVec.toInt_sub]

theorem s16_lower (h : Half) : -32768 ≤ s16 h := by
  have := BitVec.le_toInt h
  simpa [s16] using this

theorem s16_upper (h : Half) : s16 h ≤ 32767 := by
  have := BitVec.toInt_lt (x := h)
  simp at this
  unfold s16
  omega

/-- A value in the signed range survives the narrowing (R11). -/
theorem s16_trunc16 {n : Int} (h1 : -32768 ≤ n) (h2 : n ≤ 32767) : s16 (trunc16 n) = n := by
  unfold s16 trunc16
  rw [BitVec.toInt_ofInt]
  simp only [Int.bmod]
  split <;> omega

theorem clamp16_lower (n : Int) : -32768 ≤ clamp16 n := by
  unfold clamp16
  repeat' split
  all_goals omega

theorem clamp16_upper (n : Int) : clamp16 n ≤ 32767 := by
  unfold clamp16
  repeat' split
  all_goals omega

theorem clamp16_of_range {n : Int} (h1 : -32768 ≤ n) (h2 : n ≤ 32767) : clamp16 n = n := by
  unfold clamp16
  repeat' split
  all_goals omega

/-- Every rounding rule is the identity on integers (R13). -/
theorem roundQuotient_mul (rule : FracRound) (n : Int) {den : Int} (hd : 0 < den) : roundQuotient rule (n * den) den = n := by
  have h0 : n * den / den = n := Int.mul_ediv_cancel _ (by omega)
  cases rule with
  | truncate => exact Int.mul_tdiv_cancel _ (by omega)
  | floor => exact h0
  | other k => simp [roundQuotient, h0]

/-- Every rounding rule lies between the floor and the next integer (R13). -/
theorem roundQuotient_bounds (rule : FracRound) (n : Int) {den : Int} (hd : 0 < den) :
    n / den ≤ roundQuotient rule n den ∧ (roundQuotient rule n den - 1) * den < n := by
  have hm := Int.emod_nonneg n (show den ≠ 0 by omega)
  have hl := Int.emod_lt_of_pos n hd
  have hdm := Int.mul_ediv_add_emod n den
  cases rule with
  | truncate =>
    simp only [roundQuotient]
    rw [Int.tdiv_eq_ediv]
    split
    · exact ⟨by omega, by nlinarith⟩
    · rename_i h
      have hne : n % den ≠ 0 := fun h0 => h (.inr (Int.dvd_of_emod_eq_zero h0))
      rw [Int.sign_eq_one_of_pos hd]
      exact ⟨by omega, by
        have : (n / den + 1 - 1) * den = den * (n / den) := by ring
        omega⟩
  | floor =>
    simp only [roundQuotient]
    exact ⟨le_refl _, by nlinarith⟩
  | other k =>
    simp only [roundQuotient]
    split
    · exact ⟨le_refl _, by nlinarith⟩
    · split
      · exact ⟨le_refl _, by nlinarith⟩
      · refine ⟨by omega, ?_⟩
        have : (n / den + 1 - 1) * den = den * (n / den) := by ring
        omega

end Sys2Proof.Machine
end

