-- ==== Sys2Proof/Laws/Ops.lean ====
section
/-! SUPPORT. What each shared operation does, once: stores and reads at an effective address, the I/O port, the clock, and the
invariant under every update a step or a host's transaction is made of. -/

namespace Sys2Proof.Machine

theorem capacity_num_pos (b : Bank) : 0 < capacity b.num := by cases b <;> decide

/-- Reading where the store went. -/
theorem State.readEa_writeEa (s : State) (e : EffAddr) (v : Word) : (s.writeEa e v).readEa e = v := by
  simp [State.readEa, State.writeEa, State.memRead_memWrite, capacity_num_pos]

/-- A store at an effective address writes that word and no other (R53). -/
theorem State.storedAt_writeEa (s : State) (e : EffAddr) (v : Word) : StoredAt s (s.writeEa e v) e v := by
  refine ⟨s.readEa_writeEa e v, fun bank addr h => ?_⟩
  rw [State.writeEa, State.memRead_memWrite, if_neg]
  exact fun ⟨h1, _, h2⟩ => h ⟨h1, by rw [h1]; exact h2⟩

/-- What is stored in a state is stored in every state with its banks. -/
theorem StoredAt.congr {s t u : State} {e : EffAddr} {v : Word} (h : StoredAt s t e v) (h1 : u.m1 = t.m1) (h2 : u.m2 = t.m2) :
    StoredAt s u e v :=
  ⟨by rw [State.readEa, State.memRead_congr h1 h2]; exact h.1,
   fun bank addr hn => by rw [State.memRead_congr h1 h2]; exact h.2 bank addr hn⟩

theorem State.ioWrite_outputs (s : State) (addr : Half) (v : Word) :
    (s.ioWrite addr v).outputs = if ioKind s.cfg addr = .device then s.outputs ++ [(addr, v)] else s.outputs := by
  unfold State.ioWrite
  cases h : ioKind s.cfg addr <;> simp

theorem State.afterIoRead_draws (s : State) (addr : Half) :
    (s.afterIoRead addr).draws = if ioKind s.cfg addr = .device then s.draws + 1 else s.draws := by
  unfold State.afterIoRead
  cases h : ioKind s.cfg addr <;> simp

theorem State.tick_rtc (s : State) (d : ℚ) : (s.tick d).rtc = trunc16 (u16 s.rtc + ⌊(s.frac + d) * 32⌋) := rfl

theorem State.tick_frac (s : State) (d : ℚ) : (s.tick d).frac = s.frac + d - (⌊(s.frac + d) * 32⌋ : ℚ) / 32 := rfl

/-- What a step hands on where a handler's writes leave `s` (R113, R114). -/
theorem finish_next (s : State) : finish (.next s) = .next (s.setPc (s.p + 1) s.pb).count := rfl

theorem finish_jump (t : Half) (b : Bank) (s : State) : finish (.jump t b s) = .next (s.setPc t b).count := rfl

/-- The invariant depends on these fields only. -/
theorem Inv.congr {s t : State} (h : Inv s) (h1 : t.m1 = s.m1) (h2 : t.m2 = s.m2) (hf : t.frac = s.frac)
    (hi : t.icount = s.icount) (hc : t.ccount = s.ccount) (hg : t.cfg = s.cfg) : Inv t where
  m1_wf := by rw [h1]; exact h.m1_wf
  m2_wf := by rw [h2]; exact h.m2_wf
  frac_nonneg := by rw [hf]; exact h.frac_nonneg
  frac_lt := by rw [hf]; exact h.frac_lt
  counter := by rw [hi, hg]; exact h.counter
  cycles := by rw [hc, hi, hg]; exact h.cycles
  disjoint := by rw [hg]; exact h.disjoint
  encoding := by rw [hg]; exact h.encoding

theorem Inv.setAcc {s : State} (h : Inv s) (v : Word) : Inv (s.setAcc v) := h.congr rfl rfl rfl rfl rfl rfl

theorem Inv.setPc {s : State} (h : Inv s) (p : Half) (b : Bank) : Inv (s.setPc p b) := h.congr rfl rfl rfl rfl rfl rfl

theorem Inv.setHalted {s : State} (h : Inv s) : Inv s.setHalted := h.congr rfl rfl rfl rfl rfl rfl

theorem Inv.markRefused {s : State} (h : Inv s) : Inv s.markRefused := h.congr rfl rfl rfl rfl rfl rfl

theorem Inv.setIx {s : State} (h : Inv s) (r : IxReg) (v : Half) : Inv (s.setIx r v) := by
  apply h.congr <;> simp

theorem Inv.afterIoRead {s : State} (h : Inv s) (addr : Half) : Inv (s.afterIoRead addr) := by
  apply h.congr <;> simp

theorem Inv.ioWrite {s : State} (h : Inv s) (addr : Half) (v : Word) : Inv (s.ioWrite addr v) := by
  apply h.congr <;> simp

theorem Inv.count {s : State} (h : Inv s) : Inv s.count where
  m1_wf := h.m1_wf
  m2_wf := h.m2_wf
  frac_nonneg := h.frac_nonneg
  frac_lt := h.frac_lt
  counter := Nat.mod_lt _ (Nat.two_pow_pos _)
  cycles := by simp [h.cycles, Nat.add_mul]
  disjoint := h.disjoint
  encoding := h.encoding

theorem Inv.memWrite {s : State} (h : Inv s) (bank addr : Nat) (v : Word) : Inv (s.memWrite bank addr v) where
  m1_wf := (s.memWrite_wf bank addr v h.m1_wf h.m2_wf).1
  m2_wf := (s.memWrite_wf bank addr v h.m1_wf h.m2_wf).2
  frac_nonneg := by simpa using h.frac_nonneg
  frac_lt := by simpa using h.frac_lt
  counter := by simpa using h.counter
  cycles := by simpa using h.cycles
  disjoint := by simpa using h.disjoint
  encoding := by simpa using h.encoding

theorem Inv.writeEa {s : State} (h : Inv s) (e : EffAddr) (v : Word) : Inv (s.writeEa e v) := h.memWrite _ _ _

theorem Inv.resetTransition {s : State} (h : Inv s) : Inv s.resetTransition where
  m1_wf := h.m1_wf
  m2_wf := h.m2_wf
  frac_nonneg := by simp
  frac_lt := by norm_num
  counter := Nat.two_pow_pos _
  cycles := by simp
  disjoint := h.disjoint
  encoding := h.encoding

end Sys2Proof.Machine
end

