-- ==== Sys2Proof/Laws/Exec.lean ====
section
/-! SUPPORT. What each meaning answers, as one equation, and what `step` does in each engine state. -/

namespace Sys2Proof.Machine

/-- The state after a handler that ends with NEXT (R113, R114). -/
abbrev State.thenNext (s : State) : State := (s.setPc (s.p + 1) s.pb).count

theorem exec_cad (m : MemRef) (s : State) : exec (.cad m) s = .next (s.setAcc (s.operand m)).thenNext := by
  have : lanes (fun _ m => 0 + m) s.a (s.operand m) = s.operand m := by simp [lanes]
  simp only [exec, execCad, accFromOperand, this]
  rfl

theorem exec_add (m : MemRef) (s : State) :
    exec (.add m) s = .next (s.setAcc (lanes (fun a m => a + m) s.a (s.operand m))).thenNext := rfl

theorem exec_dim (m : MemRef) (s : State) :
    exec (.dim m) s = .next (s.setAcc (lanes (fun a m => a - m) s.a (s.operand m))).thenNext := rfl

theorem exec_tmu (m : MemRef) (s : State) :
    exec (.tmu m) s = .next (s.setAcc (lanes (tmul s.cfg.fracRound) s.a (s.operand m))).thenNext := rfl

/-- A half store's word, by halves (R161, R163). -/
theorem mask_halves (a b : Word) : (a &&& 0xFFFF0000#32) ||| (b &&& 0x0000FFFF#32) = leftHalf a ++ rightHalf b := by
  apply BitVec.eq_of_getLsbD_eq
  intro i hi
  simp only [leftHalf, rightHalf, BitVec.getLsbD_or, BitVec.getLsbD_and, BitVec.getLsbD_append, BitVec.getLsbD_extractLsb']
  interval_cases i <;> simp

theorem exec_lst (m : MemRef) (s : State) :
    exec (.lst m) s = .next (s.writeEa (s.ea m) (leftHalf s.a ++ rightHalf (s.operand m))).thenNext := by
  simp only [exec, execLst, storeAtEa, mask_halves]
  rfl

theorem exec_fst (m : MemRef) (s : State) : exec (.fst m) s = .next (s.writeEa (s.ea m) s.a).thenNext := rfl

theorem exec_sto (m : MemRef) (s : State) :
    exec (.sto m) s = .next (s.writeEa (s.ea m) (leftHalf (s.operand m) ++ rightHalf s.a)).thenNext := by
  simp only [exec, execSto, storeAtEa, mask_halves]
  rfl

theorem exec_shl (s : State) : exec .shl s = .next (s.setAcc (shiftLeft s.cfg.shiftScope s.a)).thenNext := rfl

theorem exec_shr (s : State) : exec .shr s = .next (s.setAcc (shiftRight s.cfg.shiftScope s.cfg.shrFill s.a)).thenNext := rfl

theorem exec_bpx (m : MemRef) (s : State) : exec (.bpx m) s = .next (s.setPc (s.ea m).addr (s.ea m).bank).count := rfl

theorem exec_blm_taken (m : MemRef) (s : State) (h : s.accNegative = true) :
    exec (.blm m) s = .next (s.setPc (s.ea m).addr (s.ea m).bank).count := by
  simp [exec, execBlm, branchIf, h, finish]

theorem exec_blm_not_taken (m : MemRef) (s : State) (h : s.accNegative = false) : exec (.blm m) s = .next s.thenNext := by
  simp [exec, execBlm, branchIf, h, finish, State.thenNext]

theorem exec_bze_taken (m : MemRef) (s : State) (h : s.accZero = true) :
    exec (.bze m) s = .next (s.setPc (s.ea m).addr (s.ea m).bank).count := by
  simp [exec, execBze, branchIf, h, finish]

theorem exec_bze_not_taken (m : MemRef) (s : State) (h : s.accZero = false) : exec (.bze m) s = .next s.thenNext := by
  simp [exec, execBze, branchIf, h, finish, State.thenNext]

theorem exec_jsb (m : MemRef) (s : State) :
    exec (.jsb m) s = .next ((s.writeEa (s.ea m) s.returnWord).setPc ((s.ea m).addr + 1) (s.ea m).bank).count := rfl

/-- A half read as signed is 1 exactly if it is the pattern 1 (R190). -/
theorem s16_eq_one (h : Half) : s16 h = 1 ↔ h = 1#16 := by
  constructor
  · intro e
    rw [← trunc16_s16 h, e]
    rfl
  · rintro rfl
    rfl

theorem s16_eq_two (h : Half) : s16 h = 2 ↔ h = 2#16 := by
  constructor
  · intro e
    rw [← trunc16_s16 h, e]
    rfl
  · rintro rfl
    rfl

theorem exec_bir_one (m : MemRef) (s : State) (h : rightHalf (s.operand m) = 1#16) :
    exec (.bir m) s = .next (s.setPc (leftHalf (s.operand m)) .one).count := by
  simp [exec, execBir, split, s16_eq_one, h, finish]

theorem exec_bir_two (m : MemRef) (s : State) (h : rightHalf (s.operand m) = 2#16) :
    exec (.bir m) s = .next (s.setPc (leftHalf (s.operand m)) .two).count := by
  simp [exec, execBir, split, s16_eq_one, s16_eq_two, h, finish]

theorem exec_bir_bad (m : MemRef) (s : State) (h1 : rightHalf (s.operand m) ≠ 1#16) (h2 : rightHalf (s.operand m) ≠ 2#16) :
    exec (.bir m) s = .refused .birBadBank := by
  simp [exec, execBir, split, s16_eq_one, s16_eq_two, h1, h2, finish]

theorem exec_ior (x : IndexSelect) (addr : Half) (s : State) :
    exec (.ior x addr) s = .next ((s.afterIoRead (s.eaAddr x addr)).setAcc (s.ioValue (s.eaAddr x addr))).thenNext := rfl

theorem exec_iow (x : IndexSelect) (addr : Half) (s : State) :
    exec (.iow x addr) s = .next (s.ioWrite (s.eaAddr x addr) s.a).thenNext := rfl

theorem exec_lix_memory (t : IxReg) (m : MemRef) (s : State) :
    exec (.lix false t m) s = .next (s.setIx t (rightHalf (s.operand m))).thenNext := rfl

theorem exec_lix_immediate (t : IxReg) (m : MemRef) (s : State) :
    exec (.lix true t m) s = .next (s.setIx t (s.ea m).addr).thenNext := rfl

theorem exec_cix (t : IxReg) (s : State) : exec (.cix t) s = .next (s.setIx t 0).thenNext := rfl

theorem exec_halt (s : State) : exec .halt s = .next s.setHalted.thenNext := rfl

theorem exec_reset (s : State) : exec .reset s = .next s.resetTransition := rfl

/-- Everything an instruction that answers a next state can have done: one line a shape. -/
theorem exec_next_cases {i : Instr} {s t : State} (h : exec i s = .next t) :
    (i.op ∈ [Op.cad, .add, .dim, .tmu, .shl, .shr] ∧ ∃ v, t = (s.setAcc v).thenNext) ∨
    (∃ m v, (i = .lst m ∨ i = .fst m ∨ i = .sto m) ∧ t = (s.writeEa (s.ea m) v).thenNext) ∨
    (∃ m, i = .jsb m ∧ t = ((s.writeEa (s.ea m) s.returnWord).setPc ((s.ea m).addr + 1) (s.ea m).bank).count) ∨
    (i.op ∈ [Op.bpx, .blm, .bze, .bir] ∧ ∃ p b, t = (s.setPc p b).count) ∨
    (∃ x addr, i = .ior x addr ∧ t = ((s.afterIoRead (s.eaAddr x addr)).setAcc (s.ioValue (s.eaAddr x addr))).thenNext) ∨
    (∃ x addr, i = .iow x addr ∧ t = (s.ioWrite (s.eaAddr x addr) s.a).thenNext) ∨
    (i.op ∈ [Op.lix, .cix] ∧ ∃ r v, t = (s.setIx r v).thenNext) ∨
    (i = .halt ∧ t = s.setHalted.thenNext) ∨
    (i = .reset ∧ t = s.resetTransition) := by
  cases i with
  | cad m => exact .inl ⟨by simp [Instr.op], _, (Host.Outcome.next.inj h).symm⟩
  | add m => exact .inl ⟨by simp [Instr.op], _, (Host.Outcome.next.inj h).symm⟩
  | dim m => exact .inl ⟨by simp [Instr.op], _, (Host.Outcome.next.inj h).symm⟩
  | tmu m => exact .inl ⟨by simp [Instr.op], _, (Host.Outcome.next.inj h).symm⟩
  | shl => exact .inl ⟨by simp [Instr.op], _, (Host.Outcome.next.inj h).symm⟩
  | shr => exact .inl ⟨by simp [Instr.op], _, (Host.Outcome.next.inj h).symm⟩
  | lst m => exact .inr (.inl ⟨m, _, by simp, (Host.Outcome.next.inj h).symm⟩)
  | fst m => exact .inr (.inl ⟨m, _, by simp, (Host.Outcome.next.inj h).symm⟩)
  | sto m => exact .inr (.inl ⟨m, _, by simp, (Host.Outcome.next.inj h).symm⟩)
  | jsb m => exact .inr (.inr (.inl ⟨m, rfl, (Host.Outcome.next.inj h).symm⟩))
  | bpx m => exact .inr (.inr (.inr (.inl ⟨by simp [Instr.op], _, _, (Host.Outcome.next.inj h).symm⟩)))
  | blm m =>
    refine .inr (.inr (.inr (.inl ⟨by simp [Instr.op], ?_⟩)))
    cases hc : s.accNegative with
    | true => exact ⟨_, _, (Host.Outcome.next.inj ((exec_blm_taken m s hc).symm.trans h)).symm⟩
    | false => exact ⟨_, _, (Host.Outcome.next.inj ((exec_blm_not_taken m s hc).symm.trans h)).symm⟩
  | bze m =>
    refine .inr (.inr (.inr (.inl ⟨by simp [Instr.op], ?_⟩)))
    cases hc : s.accZero with
    | true => exact ⟨_, _, (Host.Outcome.next.inj ((exec_bze_taken m s hc).symm.trans h)).symm⟩
    | false => exact ⟨_, _, (Host.Outcome.next.inj ((exec_bze_not_taken m s hc).symm.trans h)).symm⟩
  | bir m =>
    refine .inr (.inr (.inr (.inl ⟨by simp [Instr.op], ?_⟩)))
    by_cases h1 : rightHalf (s.operand m) = 1#16
    · exact ⟨_, _, (Host.Outcome.next.inj ((exec_bir_one m s h1).symm.trans h)).symm⟩
    · by_cases h2 : rightHalf (s.operand m) = 2#16
      · exact ⟨_, _, (Host.Outcome.next.inj ((exec_bir_two m s h2).symm.trans h)).symm⟩
      · exact absurd ((exec_bir_bad m s h1 h2).symm.trans h) (by simp)
  | ior x addr => exact .inr (.inr (.inr (.inr (.inl ⟨x, addr, rfl, (Host.Outcome.next.inj h).symm⟩))))
  | iow x addr => exact .inr (.inr (.inr (.inr (.inr (.inl ⟨x, addr, rfl, (Host.Outcome.next.inj h).symm⟩)))))
  | lix imm r m =>
    exact .inr (.inr (.inr (.inr (.inr (.inr (.inl ⟨by simp [Instr.op], r, _, (Host.Outcome.next.inj h).symm⟩))))))
  | cix r => exact .inr (.inr (.inr (.inr (.inr (.inr (.inl ⟨by simp [Instr.op], r, _, (Host.Outcome.next.inj h).symm⟩))))))
  | halt => exact .inr (.inr (.inr (.inr (.inr (.inr (.inr (.inl ⟨rfl, (Host.Outcome.next.inj h).symm⟩)))))))
  | reset => exact .inr (.inr (.inr (.inr (.inr (.inr (.inr (.inr ⟨rfl, (Host.Outcome.next.inj h).symm⟩)))))))

theorem step_of_refused {s : State} (h : s.refused = true) : step s = .refused .afterRefusal := by
  simp [step, State.engineAction, h]

theorem step_of_halted {s : State} (hr : s.refused = false) (h : s.halted = true) : step s = .next s := by
  simp [step, State.engineAction, hr, h]

theorem step_of_instr {s : State} {i : Instr} (h : Ready s) (hd : decode s.cfg.encoding s.fetchWord = .instr i) : step s = exec i s := by
  simp [step, State.engineAction, h.1, h.2, hd]

theorem step_of_noHandler {s : State} {cls : BitVec 3} {op : BitVec 4} (h : Ready s)
    (hd : decode s.cfg.encoding s.fetchWord = .noHandler cls op) : step s = .next s.thenNext := by
  simp [step, State.engineAction, h.1, h.2, hd, execNoHandler, finish, State.thenNext]

/-- Everything a step that answers a next state can be: an idle step, a run instruction, or a skipped word (R110, R113). -/
theorem step_next_cases {s t : State} (h : step s = .next t) :
    (s.halted = true ∧ t = s) ∨
    (Ready s ∧ ∃ i, decode s.cfg.encoding s.fetchWord = .instr i ∧ exec i s = .next t) ∨
    (Ready s ∧ (∃ cls op, decode s.cfg.encoding s.fetchWord = .noHandler cls op) ∧ t = s.thenNext) := by
  by_cases hr : s.refused = true
  · rw [step_of_refused hr] at h
    exact absurd h (by simp)
  · have hr : s.refused = false := by simpa using hr
    by_cases hh : s.halted = true
    · rw [step_of_halted hr hh] at h
      exact .inl ⟨hh, (Host.Outcome.next.inj h).symm⟩
    · have hready : Ready s := ⟨by simpa using hh, hr⟩
      cases hd : decode s.cfg.encoding s.fetchWord with
      | instr i => exact .inr (.inl ⟨hready, i, rfl, by rw [← step_of_instr hready hd]; exact h⟩)
      | noHandler cls op =>
        rw [step_of_noHandler hready hd] at h
        exact .inr (.inr ⟨hready, ⟨cls, op, rfl⟩, (Host.Outcome.next.inj h).symm⟩)

/-- A marked step leaves the step's next state, or only the mark (R128). -/
theorem stepMarked_cases (s : State) : step s = .next (stepMarked s) ∨ stepMarked s = s.markRefused := by
  unfold stepMarked
  cases h : step s with
  | next t => exact .inl rfl
  | fault f => nomatch f
  | refused r => exact .inr rfl

/-- What every step keeps, every run keeps (R119). -/
theorem runFor_keeps (P : State → Prop) (hP : ∀ s, P s → P (stepMarked s)) (n : Nat) (s : State) (h : P s) : P (runFor n s).1 := by
  induction n generalizing s with
  | zero => exact h
  | succ n ih =>
    unfold runFor
    split
    · exact h
    · exact ih _ (hP s h)

/-- What every transaction of the host keeps, every execution keeps (R121). -/
theorem execution_keeps (P : State → Prop) (hP : ∀ a s t, P s → hostAct a s = some t → P t) {ms : List Move} {s t : State}
    (h : Execution ms s t) (hs : P s) : P t := by
  induction ms generalizing s with
  | nil => exact h ▸ hs
  | cons m ms ih =>
    obtain ⟨u, hm, hu⟩ := h
    refine ih hu ?_
    cases m with
    | act a => exact hP a s u hs hm
    | runToEnd =>
      obtain ⟨n, hn⟩ := hm
      have := runFor_keeps P (fun s hs => hP .step s _ hs rfl) n s hs
      rwa [hn.1] at this

/-- The word placed is the word fetched. -/
theorem State.fetchWord_placeWord (s : State) (w : Word) : (s.placeWord w).fetchWord = w := by
  have : (s.placeWord w).fetchWord = (s.memWrite s.pb.num s.p.toNat w).memRead s.pb.num s.p.toNat := by
    simp only [State.fetchWord, State.placeWord, State.memWrite_pb, State.memWrite_p]
    exact State.memRead_congr rfl rfl _ _
  rw [this, State.memRead_memWrite, if_pos ⟨rfl, capacity_num_pos _, rfl⟩]

/-- The next step runs exactly the instruction that `withFetchWord` placed, in a machine with the table's encoding (log 7). -/
theorem step_withFetchWord (s : State) (nbits w : Nat) (i : Instr) (h : decodeTableWord nbits w = some i)
    (he : s.cfg.encoding = specEncoding) :
    step (s.withFetchWord nbits w) = exec i (s.withFetchWord nbits w) := by
  apply step_of_instr ⟨rfl, rfl⟩
  rw [State.withFetchWord, State.fetchWord_placeWord, State.placeWord, State.memWrite_cfg, he]
  unfold decodeTableWord at h
  split at h <;> simp_all

end Sys2Proof.Machine
end

