-- ==== Sys2Proof/Laws/PerInstr.lean ====
section
/-! SUPPORT. Per-instruction laws of the syntax: for every well-formed instruction, the fields its encoder writes are those of
its operation, and reading them back gives the instruction. -/

namespace Sys2Proof.Laws.FieldsRoundTrip

/-- The encoder's fields carry the operation's opcode, in any map (R85), and every operand (R84, R93). -/
def Statement (i : Instr) : Prop :=
  i.wellFormed = true → ∀ p : OpcodeMap,
    ((i.fields p).cls, (i.fields p).op) = opcodeOf p i.op ∧ (i.fields p).toInstr i.op = i

theorem memRef_fieldsAt (o : Op) (p : OpcodeMap) (m : MemRef) (h : addrFits m.addr = true) : (o.fieldsAt p m).memRef = m := by
  simp [Op.fieldsAt, Fields.memRef, setWidth_addr h]

theorem cad (m : MemRef) : Statement (.cad m) := fun h p => ⟨rfl, congrArg Instr.cad (memRef_fieldsAt _ p m h)⟩
theorem add (m : MemRef) : Statement (.add m) := fun h p => ⟨rfl, congrArg Instr.add (memRef_fieldsAt _ p m h)⟩
theorem dim (m : MemRef) : Statement (.dim m) := fun h p => ⟨rfl, congrArg Instr.dim (memRef_fieldsAt _ p m h)⟩
theorem tmu (m : MemRef) : Statement (.tmu m) := fun h p => ⟨rfl, congrArg Instr.tmu (memRef_fieldsAt _ p m h)⟩
theorem lst (m : MemRef) : Statement (.lst m) := fun h p => ⟨rfl, congrArg Instr.lst (memRef_fieldsAt _ p m h)⟩
theorem fst (m : MemRef) : Statement (.fst m) := fun h p => ⟨rfl, congrArg Instr.fst (memRef_fieldsAt _ p m h)⟩
theorem sto (m : MemRef) : Statement (.sto m) := fun h p => ⟨rfl, congrArg Instr.sto (memRef_fieldsAt _ p m h)⟩
theorem shl : Statement .shl := fun _ _ => ⟨rfl, rfl⟩
theorem shr : Statement .shr := fun _ _ => ⟨rfl, rfl⟩
theorem bpx (m : MemRef) : Statement (.bpx m) := fun h p => ⟨rfl, congrArg Instr.bpx (memRef_fieldsAt _ p m h)⟩
theorem blm (m : MemRef) : Statement (.blm m) := fun h p => ⟨rfl, congrArg Instr.blm (memRef_fieldsAt _ p m h)⟩
theorem bze (m : MemRef) : Statement (.bze m) := fun h p => ⟨rfl, congrArg Instr.bze (memRef_fieldsAt _ p m h)⟩
theorem jsb (m : MemRef) : Statement (.jsb m) := fun h p => ⟨rfl, congrArg Instr.jsb (memRef_fieldsAt _ p m h)⟩
theorem bir (m : MemRef) : Statement (.bir m) := fun h p => ⟨rfl, congrArg Instr.bir (memRef_fieldsAt _ p m h)⟩

theorem ior (x : IndexSelect) (addr : Half) : Statement (.ior x addr) :=
  fun h _ => ⟨rfl, congrArg (Instr.ior x) (setWidth_addr h)⟩

theorem iow (x : IndexSelect) (addr : Half) : Statement (.iow x addr) :=
  fun h _ => ⟨rfl, congrArg (Instr.iow x) (setWidth_addr h)⟩

theorem lix (imm : Bool) (t : IxReg) (m : MemRef) : Statement (.lix imm t m) :=
  fun h p => ⟨rfl, congrArg (Instr.lix imm t) (memRef_fieldsAt .lix p m h)⟩

theorem cix (t : IxReg) : Statement (.cix t) := fun _ _ => ⟨rfl, rfl⟩
theorem halt : Statement .halt := fun _ _ => ⟨rfl, rfl⟩
theorem reset : Statement .reset := fun _ _ => ⟨rfl, rfl⟩

end Sys2Proof.Laws.FieldsRoundTrip
end

