-- ==== Sys2Proof/Tests/Slice0.lean ====
section
/-! SUPPORT. Tests: expected values are those of 95_test_vectors.md (their ids are named) or worked out by hand from the rules; and a
named witness for the hypotheses of each statement. -/

namespace Sys2Proof.Tests

open Sys2Proof Sys2Proof.Machine

/-- Bank 1 with the word `w` at address 0 and the given words elsewhere, otherwise the power-on state: `P = 0`, `PB = 1`. -/
def at0 (w : Word) (cells : List (Nat × Nat × Word)) : State :=
  ((1, 0, w) :: cells).foldl (fun s c => s.memWrite c.1 c.2.1 c.2.2) State.reset

/-- One view of the state a step leaves, if it leaves one. -/
def after {α : Type} (s : State) (view : State → α) : Option α :=
  match step s with
  | .next t => some (view t)
  | .fault _ => none
  | .refused _ => none

/-- The reason a step is refused, if it is. -/
def refusal (s : State) : Option Refusal :=
  match step s with
  | .next _ => none
  | .fault _ => none
  | .refused r => some r

/-- The I/O map chosen "for the vectors only": RTC_IO_ADDR = 16, DEVICE_ADDRS = [17] (95_test_vectors.md). -/
def vectorConfig : Config := { initialConfig with rtcIoAddr := 16, deviceAddrs := [17] }

/-- The words of a plain memory operand in bank 1. -/
def m1 (addr : Half) : MemRef := ⟨.one, .noIndex, addr⟩

/-! ### Syntax and encoding -/

/-- Every check of `wellFormed` refuses an address of 16 bits (R97). -/
theorem test_wellFormed_refuses :
    (Instr.cad (m1 0x8000)).wellFormed = false ∧ (Instr.add (m1 0x8000)).wellFormed = false ∧
    (Instr.dim (m1 0x8000)).wellFormed = false ∧ (Instr.tmu (m1 0x8000)).wellFormed = false ∧
    (Instr.lst (m1 0x8000)).wellFormed = false ∧ (Instr.fst (m1 0x8000)).wellFormed = false ∧
    (Instr.sto (m1 0x8000)).wellFormed = false ∧ (Instr.bpx (m1 0x8000)).wellFormed = false ∧
    (Instr.blm (m1 0x8000)).wellFormed = false ∧ (Instr.bze (m1 0x8000)).wellFormed = false ∧
    (Instr.jsb (m1 0x8000)).wellFormed = false ∧ (Instr.bir (m1 0x8000)).wellFormed = false ∧
    (Instr.ior .noIndex 0x8000).wellFormed = false ∧ (Instr.iow .noIndex 0x8000).wellFormed = false ∧
    (Instr.lix true .ix0 (m1 0x8000)).wellFormed = false := by decide

theorem test_wellFormed_accepts : (Instr.cad (m1 0x7FFF)).wellFormed = true ∧ Instr.halt.wellFormed = true := by decide

/-- Every check of `Encoding.valid` refuses: a field past bit 31, two fields on one bit, an operation without a row, one with two
rows, a pair with two rows (R80, R85). -/
theorem test_encoding_refuses :
    ({ encLayout with bLo := 32 } : EncLayout).valid = false ∧ ({ encLayout with tLo := 17 } : EncLayout).valid = false ∧
    OpcodeMap.valid opcodeMap.tail = false ∧ OpcodeMap.valid ((.cad, 0, 0) :: opcodeMap) = false ∧
    OpcodeMap.valid ((.cad, 1, 1) :: opcodeMap.tail) = false := by decide

/-- Another choice of ENC_LAYOUT and OPCODE_MAP (U17): the reserved bits lowest in the left half, CAD in class 0. -/
def otherEncoding : Encoding :=
  { layout := { bLo := 31, classLo := 28, opLo := 24, iLo := 23, tLo := 21, xLo := 19, sLo := 15, addrLo := 0 }
    opcodeMap := (.cad, 0, 15) :: opcodeMap.tail }

/-- The decoder follows the machine's own encoding. -/
theorem test_otherEncoding :
    otherEncoding.valid = true ∧ decode otherEncoding 0x8F080005#32 = .instr (.cad ⟨.two, .ix0, 5⟩) ∧
    after { at0 0x0F000064#32 [(1, 100, 7)] with cfg := { initialConfig with encoding := otherEncoding } } (·.a) = some 7 := by decide

/-! Each constructor's word, written out bit by bit from R80 and R85: B CLASS OP I --- T X S ADDR. -/

theorem test_decode_cad : decode specEncoding 0b1_001_0000_0_000_00_10_0_000000000000101#32 = .instr (.cad ⟨.two, .ix1, 5⟩) := by decide
theorem test_decode_add : decode specEncoding 0b0_001_0001_0_000_00_00_0_000000001100101#32 = .instr (.add (m1 101)) := by decide
theorem test_decode_dim : decode specEncoding 0b0_001_0010_0_000_00_00_0_000000000010101#32 = .instr (.dim (m1 21)) := by decide
theorem test_decode_tmu : decode specEncoding 0b1_001_0011_0_000_00_00_0_000000000001011#32 = .instr (.tmu ⟨.two, .noIndex, 11⟩) := by decide
theorem test_decode_lst : decode specEncoding 0b0_010_0000_0_000_00_11_0_000000000000001#32 = .instr (.lst ⟨.one, .ix2, 1⟩) := by decide
theorem test_decode_fst : decode specEncoding 0b1_010_0001_0_000_00_00_0_001000000000001#32 = .instr (.fst ⟨.two, .noIndex, 4097⟩) := by decide
theorem test_decode_sto : decode specEncoding 0b0_010_0010_0_000_00_00_0_000000011001000#32 = .instr (.sto (m1 200)) := by decide
theorem test_decode_shl : decode specEncoding 0b0_011_0000_0_000_00_00_0_000000000000000#32 = .instr .shl := by decide
theorem test_decode_shr : decode specEncoding 0b1_011_0001_1_111_11_11_1_111111111111111#32 = .instr .shr := by decide
theorem test_decode_bpx : decode specEncoding 0b1_100_0000_0_000_00_00_0_000000001100100#32 = .instr (.bpx ⟨.two, .noIndex, 100⟩) := by decide
theorem test_decode_blm : decode specEncoding 0b0_100_0001_0_000_00_00_0_000000000101000#32 = .instr (.blm (m1 40)) := by decide
theorem test_decode_bze : decode specEncoding 0b0_100_0010_0_000_00_00_0_000000000000111#32 = .instr (.bze (m1 7)) := by decide
theorem test_decode_jsb : decode specEncoding 0b0_100_0011_0_000_00_01_0_000000000000000#32 = .instr (.jsb ⟨.one, .ix0, 0⟩) := by decide
theorem test_decode_bir : decode specEncoding 0b0_100_0100_0_000_00_00_0_000000111110100#32 = .instr (.bir (m1 500)) := by decide
theorem test_decode_ior : decode specEncoding 0b1_101_0000_0_000_00_01_0_000000000010001#32 = .instr (.ior .ix0 17) := by decide
theorem test_decode_iow : decode specEncoding 0b0_101_0001_0_000_00_00_0_000000000010000#32 = .instr (.iow .noIndex 16) := by decide
theorem test_decode_lix : decode specEncoding 0b0_110_0000_1_000_01_10_0_000000000000001#32 = .instr (.lix true .ix1 ⟨.one, .ix1, 1⟩) := by decide
theorem test_decode_cix : decode specEncoding 0b0_110_0001_0_000_10_00_0_000000000000000#32 = .instr (.cix .ix2) := by decide
theorem test_decode_halt : decode specEncoding 0b0_111_0000_0_000_00_00_0_000000000000000#32 = .instr .halt := by decide
theorem test_decode_reset : decode specEncoding 0b0_111_0001_0_000_00_00_0_000000000000000#32 = .instr .reset := by decide

/-- E-3, EN-2, E-10: words with no handler. -/
theorem test_decode_noHandler :
    decode specEncoding 0x00000000#32 = .noHandler 0 0 ∧ decode specEncoding 0x1F000000#32 = .noHandler 1 15 ∧ decode specEncoding 0x800C0000#32 = .noHandler 0 0 := by decide

/-- The words of 95_test_vectors.md that the encoder writes: IX-2, BR-1, P2. -/
theorem test_encode :
    encode specEncoding (.lix true .ix3 (m1 300)) = 0x608C012C#32 ∧ encode specEncoding (.bpx ⟨.two, .noIndex, 100⟩) = 0xC0000064#32 ∧
    encode specEncoding (.lix true .ix0 ⟨.one, .ix0, 1⟩) = 0x60810001#32 ∧ encode specEncoding (.fst ⟨.one, .ix0, 0⟩) = 0x21010000#32 := by decide

theorem test_decodeTableWord : decodeTableWord 32 0x71000000 = some .reset ∧ decodeTableWord 24 0x71000000 = none := by decide

/-! ### Words -/

/-- W-1 to W-5. -/
theorem test_split_join :
    split 0x8000FFFF#32 = (-32768, -1) ∧ split 0x7FFF0000#32 = (32767, 0) ∧ join (-1) 1 = 0xFFFF0001#32 ∧
    join 40000 0 = 0x9C400000#32 ∧ join 65537 (-65537) = 0x0001FFFF#32 := by decide

/-- S-3, W-7 to W-10. -/
theorem test_fromFraction :
    fromFraction .truncate 2 = 32767 ∧ fromFraction .truncate (-2) = -32768 ∧ fromFraction .truncate 1 = 32767 ∧
    fromFraction .truncate (-1) = -32768 ∧ fromFraction .truncate (1 / 2) = 16384 ∧
    fromFraction .truncate (-1 / 65536) = 0 ∧ fromFraction .floor (-1 / 65536) = -1 := by decide +kernel

/-- W-6. -/
theorem test_toFraction : toFraction (-32768) = -1 ∧ toFraction 16384 = 1 / 2 := by decide +kernel

/-! ### Effective address: E-2, E-6, E-7, E-11 -/

theorem test_ea :
    ({ State.reset with ix0 := 2 }).ea ⟨.one, .ix0, 65535⟩ = ⟨.one, 1⟩ ∧
    ({ State.reset with ix1 := 0xFFFF }).ea ⟨.one, .ix1, 0⟩ = ⟨.one, 65535⟩ ∧
    ({ State.reset with ix2 := 0x7FFF }).ea ⟨.one, .ix2, 0x7FFF⟩ = ⟨.one, 65534⟩ ∧
    ({ State.reset with ix0 := 0xFFF0 }).ea ⟨.one, .ix0, 100⟩ = ⟨.one, 84⟩ := by decide

/-! ### Arithmetic -/

/-- AR-2. -/
theorem test_cad : after (at0 0x10000064#32 [(1, 100, 0x8000FFFF#32)]) (·.a) = some 0x8000FFFF#32 := by decide

/-- E-5: the operand of `CAD 2:5000` is cell 904 of bank 2. -/
theorem test_cad_bank2_aliases : after (at0 0x90001388#32 [(2, 904, 0x00000007#32)]) (·.a) = some 0x00000007#32 := by decide

/-- AR-3. -/
theorem test_add_wraps :
    after { at0 0x11000064#32 [(1, 100, 0x0001FFFF#32)] with a := 0x7FFF0001#32 } (·.a) = some 0x80000000#32 := by decide

/-- AR-4. -/
theorem test_add_no_carry :
    after { at0 0x11000064#32 [(1, 100, 0x00000001#32)] with a := 0x0000FFFF#32 } (·.a) = some 0x00000000#32 := by decide

/-- AR-7. -/
theorem test_dim_wraps :
    after { at0 0x12000064#32 [(1, 100, 0x00010005#32)] with a := 0x80000005#32 } (·.a) = some 0x7FFF0000#32 := by decide

/-- AR-6. -/
theorem test_dim_no_borrow : after (at0 0x12000064#32 [(1, 100, 0x00000001#32)]) (·.a) = some 0x0000FFFF#32 := by decide

/-- AR-10. -/
theorem test_tmu_saturates :
    after { at0 0x13000064#32 [(1, 100, 0x80008000#32)] with a := 0x80008000#32 } (·.a) = some 0x7FFF7FFF#32 := by decide

/-- AR-11 under the default, and the floor value R144 gives for its right lane. -/
theorem test_tmu_rounds :
    after { at0 0x13000064#32 [(1, 100, 0x40004000#32)] with a := 0x0003FFFD#32 } (·.a) = some 0x0001FFFF#32 ∧
    tmul .floor (-3) 16384 = -2 := by decide

/-! ### Stores -/

/-- ST-1. -/
theorem test_lst :
    after { at0 0x20000064#32 [(1, 100, 0xAAAABBBB#32)] with a := 0x12345678#32 } (·.memRead 1 100) = some 0x1234BBBB#32 := by decide

/-- ST-4. -/
theorem test_fst_bank2 :
    after { at0 0xA1001001#32 [] with a := 0x00000001#32 } (fun t => (t.memRead 2 1, t.memRead 2 0)) =
      some (0x00000001#32, 0x00000000#32) := by decide

/-- ST-6: the next step would fetch the stored HALT. -/
theorem test_fst_then_fetch :
    after { at0 0x21000001#32 [(1, 1, 0x10000000#32)] with a := 0x70000000#32 } (·.fetchWord) = some 0x70000000#32 := by decide

/-- ST-3. -/
theorem test_sto :
    after { at0 0x22000064#32 [(1, 100, 0xAAAABBBB#32)] with a := 0x12345678#32 } (·.memRead 1 100) = some 0xAAAA5678#32 := by decide

/-! ### Shifts -/

/-- SH-1. -/
theorem test_shl : after { at0 0x30000000#32 [] with a := 0x4000C001#32 } (·.a) = some 0x80008002#32 := by decide

/-- The whole-word value R171 gives. -/
theorem test_shl_wholeWord :
    after { at0 0x30000000#32 [] with a := 0x4000C001#32, cfg := { initialConfig with shiftScope := .wholeWord } } (·.a) =
      some 0x80018002#32 := by decide

/-- SH-4. -/
theorem test_shr : after { at0 0x31000000#32 [] with a := 0x80010003#32 } (·.a) = some 0xC0000001#32 := by decide

/-- The whole-word arithmetic value R172 gives. -/
theorem test_shr_wholeWord :
    after { at0 0x31000000#32 [] with a := 0x80010003#32, cfg := { initialConfig with shiftScope := .wholeWord } } (·.a) =
      some 0xC0008001#32 := by decide

/-! ### Control transfer -/

/-- BR-1. -/
theorem test_bpx : after (at0 0xC0000064#32 []) (fun t => (t.p, t.pb)) = some (100, .two) := by decide

/-- BR-2. -/
theorem test_blm_taken : after { at0 0x41000028#32 [] with a := 0xFFFF0000#32 } (·.p) = some 40 := by decide

/-- BR-3. -/
theorem test_blm_not_taken : after { at0 0x41000028#32 [] with a := 0x0000FFFF#32 } (·.p) = some 1 := by decide

/-- BR-5. -/
theorem test_bze_taken : after (at0 0x42000004#32 []) (·.p) = some 4 := by decide

/-- BR-6. -/
theorem test_bze_not_taken : after { at0 0x42000004#32 [] with a := 0x00010000#32 } (·.p) = some 1 := by decide

/-- BR-8: JSB 2:4095 at P = 65535. -/
theorem test_jsb_wraps :
    after { (at0 0 []).memWrite 1 65535 0xC3000FFF#32 with p := 65535 } (fun t => (t.memRead 2 4095, t.p, t.pb)) =
      some (0x00000001#32, 4096, .two) := by decide

/-- BR-9: JSB 0,X1 at P = 3 of bank 2. -/
theorem test_jsb_indexed :
    after { (at0 0 []).memWrite 2 3 0x43010000#32 with p := 3, pb := .two, ix0 := 0x8000 }
      (fun t => (t.memRead 1 32768, t.p, t.pb)) = some (0x00040002#32, 32769, .one) := by decide

/-- BR-10. -/
theorem test_bir : after (at0 0x44000028#32 [(1, 40, 0x80000002#32)]) (fun t => (t.p, t.pb)) = some (32768, .two) := by decide

/-- BR-11, BR-12. -/
theorem test_bir_refused :
    refusal (at0 0x44000028#32 []) = some .birBadBank ∧
    refusal (at0 0x44000028#32 [(1, 40, 0x00050003#32)]) = some .birBadBank := by decide

/-! ### I/O -/

/-- IO-7's word, whose indexed address is 16, the clock's, with IO-2's clock. -/
theorem test_ior_rtc :
    after { at0 0x50010011#32 [] with ix0 := 0xFFFF, rtc := 40000, cfg := vectorConfig } (·.a) = some 0x9C400000#32 := by decide

/-- IO-3 and IO-6: an unmapped address reads 0; a device read takes one draw. -/
theorem test_ior_others :
    after { at0 0x50000063#32 [] with a := 5, cfg := vectorConfig } (fun t => (t.a, t.draws)) = some (0, 0) ∧
    after { at0 0x50000011#32 [] with cfg := vectorConfig } (·.draws) = some 1 := by decide

/-- IO-5. -/
theorem test_iow_device :
    after { at0 0x51000011#32 [] with a := 0x00030004#32, cfg := vectorConfig } (fun t => (t.outputs, t.a, t.p)) =
      some ([(17, 0x00030004#32)], 0x00030004#32, 1) := by decide

/-- IO-4. -/
theorem test_iow_rtc :
    after { at0 0x51000010#32 [] with a := 9, rtc := 5, cfg := vectorConfig } (fun t => (t.rtc, t.outputs)) = some (5, []) := by decide

/-! ### Index registers -/

/-- IX-4: EA uses the old `ix[0]`. -/
theorem test_lix_memory :
    after { at0 0x6001000A#32 [(1, 15, 0xABCD0007#32)] with ix0 := 5 } (·.ix0) = some 7 := by decide

/-- IX-3. -/
theorem test_lix_immediate : after { at0 0x60860001#32 [] with ix1 := 0xFFFF } (·.ix1) = some 0 := by decide

/-- IX-5. -/
theorem test_cix : after { at0 0x61080000#32 [] with ix1 := 1, ix2 := 0x1234 } (fun t => (t.ix1, t.ix2)) = some (1, 0) := by decide

/-! ### Machine control, the engine, the clock -/

/-- EN-5. -/
theorem test_halt :
    after { (at0 0 []).memWrite 1 3 0x70000000#32 with p := 3, icount := 3 } (fun t => (t.halted, t.p, t.icount)) =
      some (true, 4, 4) := by decide

/-- EN-6, without its memory. -/
theorem test_reset :
    after { at0 0 [(2, 9, 0x71000000#32)] with a := 0x12345678#32, p := 9, pb := .two, ix0 := 1, ix3 := 4, icount := 9, rtc := 7 }
      (fun t => ((t.a, t.ix0, t.ix3), (t.p, t.pb), t.icount, t.rtc)) = some ((0, 0, 0), (0, .one), 0, 0) := by decide

/-- EN-2: a word with no handler at P = 65535. -/
theorem test_noHandler_wraps :
    after { (at0 0 []).memWrite 1 65535 0x1F000000#32 with p := 65535 } (fun t => (t.p, t.icount, t.ccount)) =
      some (0, 1, 1) := by decide

/-- EN-4. -/
theorem test_halted_step : after { at0 0x10000064#32 [] with halted := true } (fun t => (t.p, t.icount)) = some (0, 0) := by decide

/-- EN-7, EN-8. -/
theorem test_run :
    (runFor 3 (at0 0 [])).2 = 3 ∧ (runFor 3 (at0 0 [])).1.p = 3 ∧
    (runFor 3 { at0 0 [] with halted := true }).2 = 0 := by decide

/-- CL-1, CL-3 then CL-4, CL-6. -/
theorem test_tick :
    (State.reset.tick 1).rtc = 32 ∧ (((State.reset.tick (1 / 100)).tick (1 / 100)).tick (1 / 100)).frac = 3 / 100 ∧
    ((((State.reset.tick (1 / 100)).tick (1 / 100)).tick (1 / 100)).tick (1 / 800)).rtc = 1 ∧
    ({ State.reset with rtc := 65535 }.tick (1 / 32)).rtc = 0 := by decide +kernel

/-- S-9's first word and its literal, assembled with the literal at 100. -/
theorem test_assemble :
    assemble specEncoding 100 (.onAddress .cad (.literal 5)) = .withLiteral 0x10000064#32 0x00000005#32 ∧
    assemble specEncoding 100 (.onAddress .sto (.address 1 200 none)) = .word 0x220000C8#32 ∧
    assemble specEncoding 100 (.lixImmediate 0 1 1 (some 1)) = .word 0x60810001#32 ∧
    assemble specEncoding 100 (.onAddress .sto (.address 1 32768 none)) = .refused .addressOutOfRange ∧
    assemble specEncoding 100 (.onAddress .cad (.address 1 5 (some 4))) = .refused .indexOutOfRange ∧
    assemble specEncoding 100 (.cix 4) = .refused .targetOutOfRange ∧
    assemble specEncoding 100 (.onAddress .ior (.literal 5)) = .refused .literalNotLegal ∧
    assemble specEncoding 100 (.bare .cad) = .refused .wrongForm := by decide

/-- IO-8's word: the bank of `IOR 2:16` stands in B. -/
theorem test_assemble_ior_bank2 : assemble specEncoding 0 (.onAddress .ior (.address 2 16 none)) = .word 0xD0000010#32 := by decide

/-- COUNTER_BITS is 64 by default (D27); with 8 bits and a cost of 3, both counters wrap at 256 (R30, R31). -/
theorem test_counters_wrap :
    after { at0 0 [] with icount := 2 ^ 64 - 1, ccount := 5 } (fun t => (t.icount, t.ccount)) = some (0, 6) ∧
    after { at0 0 [] with icount := 255, ccount := 253, cfg := { initialConfig with counterBits := 8, cyclesPerInstr := 3 } }
      (fun t => (t.icount, t.ccount)) = some (0, 0) := by decide

/-! ### Witnesses: states and operands that meet the hypotheses of the statements -/

theorem ready_at0 (w : Word) (cells : List (Nat × Nat × Word)) : Ready (at0 w cells) := by
  have step1 : ∀ (l : List (Nat × Nat × Word)) (s : State), Ready s →
      Ready (l.foldl (fun s c => s.memWrite c.1 c.2.1 c.2.2) s) := by
    intro l
    induction l with
    | nil => exact fun _ h => h
    | cons c l ih => exact fun s h => ih _ ⟨by simpa using h.1, by simpa using h.2⟩
  exact step1 _ _ ⟨rfl, rfl⟩

/-- The invariant has a witness that is not the power-on state: memory and clock in use. -/
theorem inv_witness : Inv { (at0 0x11000064#32 [(2, 4095, 7)]).tick (1 / 50) with cfg := vectorConfig } where
  m1_wf := by decide
  m2_wf := by decide
  frac_nonneg := by decide +kernel
  frac_lt := by decide +kernel
  counter := by decide
  cycles := by decide
  disjoint := by decide
  encoding := by decide

/-- The spec's encoding and another one. -/
theorem witness_DecodeOfEncode : specEncoding.valid = true ∧ otherEncoding.valid = true ∧ (Instr.tmu ⟨.two, .ix2, 32767⟩).wellFormed = true := by decide

theorem witness_DecodedInstructions : decode specEncoding 0x9300000B#32 = .instr (.tmu ⟨.two, .noIndex, 11⟩) := by decide

/-- E-9 and E-8; a word of another class; a SHL and a class-0 word with every ignored bit set; two CIX words; IO-8's word; and
instructions that meet the clauses on the encoder. -/
theorem witness_IgnoredBits :
    (0x10708064#32 &&& 0xFF8F7FFF#32 = 0x10000064#32 &&& 0xFF8F7FFF#32) ∧
    (0x10FC8064#32 &&& 0x70000000#32 ≠ 0x60000000#32 ∧ 0x10FC8064#32 &&& 0xFF037FFF#32 = 0x10000064#32 &&& 0xFF037FFF#32) ∧
    (0xB0FFFFFF#32 &&& 0x7F000000#32 = 0x30000000#32) ∧
    (decode specEncoding 0x80FFFFFF#32 = .noHandler 0 0 ∧ 0x80FFFFFF#32 &&& 0x7F000000#32 = 0x00000000#32 &&& 0x7F000000#32) ∧
    (0xE1F8FFFF#32 &&& 0x7F000000#32 = 0x61000000#32 ∧ 0xE1F8FFFF#32 &&& 0x7F0C0000#32 = 0x61080000#32 &&& 0x7F0C0000#32) ∧
    (0xD0000010#32 &&& 0x7F000000#32 = 0x50000000#32 ∧ 0xD0000010#32 &&& 0x7F037FFF#32 = 0x50000010#32 &&& 0x7F037FFF#32) ∧
    (Instr.iow .ix2 32767).op ≠ .lix ∧ (Instr.iow .ix2 32767).op ≠ .cix ∧ (Instr.iow .ix2 32767).op = .iow := by decide

theorem witness_StepRuns :
    Ready (at0 0x71000000#32 []) ∧ decode (at0 0x71000000#32 []).cfg.encoding ((at0 0x71000000#32 []).memRead (at0 0x71000000#32 []).pb.num (at0 0x71000000#32 []).p.toNat) =
      .instr .reset := ⟨ready_at0 _ _, by decide⟩

theorem witness_HaltedStep : { State.reset with halted := true }.halted = true ∧ { State.reset with halted := true }.refused = false := by
  decide

theorem witness_WordWithNoHandler : Ready (at0 0x1F000000#32 []) ∧ decode (at0 0x1F000000#32 []).cfg.encoding (at0 0x1F000000#32 []).fetchWord = .noHandler 1 15 :=
  ⟨ready_at0 _ _, by decide⟩

/-- A refused step from an unmarked state, and a marked state. -/
theorem witness_RefusedStep :
    step (at0 0x44000028#32 []) = .refused .birBadBank ∧ { State.reset with refused := true }.refused = true :=
  ⟨by rw [step_of_instr (ready_at0 _ _) (i := .bir (m1 40)) (by decide)]; exact exec_bir_bad _ _ (by decide) (by decide), rfl⟩

theorem witness_OnlyABadReturnWord :
    exec (.bir (m1 40)) (at0 0 [(1, 40, 0x00050003#32)]) = .refused .birBadBank :=
  exec_bir_bad _ _ (by decide) (by decide)

theorem witness_CompletedInstructions :
    Instr.shl ≠ .reset ∧ exec .shl State.reset = .next (State.reset.setAcc (shiftLeft State.reset.cfg.shiftScope State.reset.a)).thenNext :=
  ⟨by decide, exec_shl _⟩

theorem witness_SplitOfJoin : (-32768 : Int) ≤ -32768 ∧ (-32768 : Int) ≤ 32767 ∧ (-32768 : Int) ≤ 32767 ∧ (32767 : Int) ≤ 32767 := by
  decide

/-- Neighbours of a half on either side, and zero, where the clauses on either sign meet. -/
theorem witness_Rounding : (1 / 2 : ℚ) ≤ 3 / 2 ∧ (0 : ℚ) ≤ 3 / 2 ∧ (-3 / 2 : ℚ) ≤ 0 ∧ (0 : ℚ) ≤ 0 := by norm_num

theorem witness_FromFraction : (1 : ℚ) ≤ 1 ∧ (-32769 / 32768 : ℚ) < -1 ∧ (-32768 : Int) ≤ -32768 ∧ (32767 : Int) ≤ 32767 := by norm_num

/-- Banks 0 and 3; a word with entries right below and right above its cell. -/
theorem witness_MemRead : (0 : Nat) ≠ 1 ∧ (0 : Nat) ≠ 2 ∧ (3 : Nat) ≠ 1 ∧ (3 : Nat) ≠ 2 ∧
    ∀ c ∈ ([(3, 1), (8, 2)] : Memory), c.1 < 4 * 1 ∨ 4 * 1 + 3 < c.1 := by decide

/-- Aliases of bank 2; two cells of one bank; the same cell number in the two banks. -/
theorem witness_MemReadAfterMemWrite :
    5 % capacity Bank.two.num = 4101 % capacity Bank.two.num ∧ 65535 % capacity Bank.one.num ≠ 0 % capacity Bank.one.num ∧
    (1 : Nat) ≠ Bank.two.num := by decide

theorem witness_EqualWords :
    Memory.wf 2 [(3, 5), (4, 1)] = true ∧ ∀ a, a < 2 → Memory.readWord [(3, 5), (4, 1)] a = Memory.readWord [(3, 5), (4, 1)] a :=
  ⟨by decide, fun _ _ => rfl⟩

theorem witness_TmuLane : ¬ (s16 0x8000#16 = -32768 ∧ s16 0x8001#16 = -32768) := by decide

/-- The next fetch is at `P + 1`; here `P + 1` is 4096 of bank 2, an alias of cell 0. -/
theorem witness_StoreIsSeen :
    (∃ t, exec (.fst ⟨.two, .noIndex, 0⟩) { State.reset with p := 4095, pb := .two } = .next t) ∧
    ({ State.reset with p := 4095, pb := .two }.ea ⟨.two, .noIndex, 0⟩).bank = { State.reset with p := 4095, pb := .two }.pb ∧
    ({ State.reset with p := 4095, pb := .two }.ea ⟨.two, .noIndex, 0⟩).addr.toNat % capacity Bank.two.num =
      (4095#16 + 1).toNat % capacity Bank.two.num := ⟨⟨_, exec_fst _ _⟩, by decide, by decide⟩

/-- Both legal banks. -/
theorem witness_BirGoes :
    rightHalf ((at0 0 [(1, 40, 0x00050001#32)]).readEa ((at0 0 [(1, 40, 0x00050001#32)]).ea (m1 40))) = BitVec.ofNat 16 Bank.one.num ∧
    rightHalf ((at0 0 [(1, 40, 0x80000002#32)]).readEa ((at0 0 [(1, 40, 0x80000002#32)]).ea (m1 40))) = BitVec.ofNat 16 Bank.two.num := by
  decide

/-- S-6: the state right after `JSB 500` at (1, 10) is itself a state `u` of the statement. -/
theorem witness_ReturnLands :
    ∃ t, exec (.jsb (m1 500)) { State.reset with p := 10 } = .next t ∧
      t.ea (m1 500) = { State.reset with p := 10 }.ea (m1 500) :=
  ⟨_, exec_jsb _ _, rfl⟩

/-- The hypothesis `step s = .next t` of the whole-machine statements, at a CAD. -/
theorem witness_step_next : ∃ t, step (at0 0x10000064#32 []) = .next t ∧ t.p = 1 :=
  ⟨_, (step_of_instr (ready_at0 _ _) (i := .cad (m1 100)) (by decide)).trans (exec_cad _ _), by decide⟩

/-- The same with a state that meets the invariant, for the statements that start from it. -/
theorem witness_inv_step : ∃ s t, Inv s ∧ step s = .next t :=
  ⟨_, _, inv_witness, (step_of_instr (i := .add (m1 100)) ⟨rfl, rfl⟩ (by decide)).trans (exec_add _ _)⟩

theorem witness_inv_hostAct : ∃ t, Inv { (at0 0x11000064#32 [(2, 4095, 7)]).tick (1 / 50) with cfg := vectorConfig } ∧
    hostAct (.write 2 4096 (-1)) { (at0 0x11000064#32 [(2, 4095, 7)]).tick (1 / 50) with cfg := vectorConfig } = some t :=
  ⟨_, inv_witness, rfl⟩

/-- An execution: the host loads `ADD 100`, ticks, steps, ticks, steps and runs; a HALT stands at address 1 (R121, R274). -/
theorem witness_execution : ∃ t, Execution
    [.act (.write 1 0 0x11000064), .act (.write 1 1 0x70000000), .act (.tick (1 / 50)), .act .step, .act (.tick (1 / 50)),
      .act (.run 5), .runToEnd] State.reset t ∧ t.halted = true :=
  ⟨_, ⟨_, rfl, _, rfl, _, if_pos (by norm_num), _, rfl, _, if_pos (by norm_num), _, rfl, _, ⟨0, rfl, by decide⟩, rfl⟩, by decide⟩

theorem witness_Reachable : Reachable State.reset := ⟨[], rfl⟩

/-- The clause on the host: a `step` of the host at a HALT. -/
theorem witness_hostHalt : ∃ t, hostAct .step (at0 0x70000000#32 []) = some t ∧ (at0 0x70000000#32 []).halted = false ∧
    t.halted = true := ⟨_, rfl, by decide, by decide⟩

/-- The clause on a tick before a step: a step at a CAD. -/
theorem witness_tickAside : (∃ t, step (at0 0x10000064#32 []) = .next t) ∧
    ∀ i, decode (at0 0x10000064#32 []).cfg.encoding (at0 0x10000064#32 []).fetchWord = .instr i → i.op ≠ .reset ∧ i.op ≠ .ior := by
  refine ⟨⟨_, (step_of_instr (ready_at0 _ _) (i := .cad (m1 100)) (by decide)).trans (exec_cad _ _)⟩, fun i h => ?_⟩
  rw [show decode (at0 0x10000064#32 []).cfg.encoding (at0 0x10000064#32 []).fetchWord = .instr (.cad (m1 100)) by decide] at h
  cases h
  decide

/-- HALT runs from the Ready state; a halted state steps to itself; the host's reset clears the flag. -/
theorem witness_Halted :
    (∃ t, step (at0 0x70000000#32 []) = .next t ∧ (at0 0x70000000#32 []).halted = false ∧ t.halted = true) ∧
    step { State.reset with halted := true } = .next { State.reset with halted := true } ∧
    (∃ t, hostAct .reset { State.reset with halted := true } = some t ∧ t.halted = false) :=
  ⟨⟨_, (step_of_instr (ready_at0 _ _) (i := .halt) (by decide)).trans (exec_halt _), by decide, rfl⟩,
   step_of_halted rfl rfl, ⟨_, rfl, rfl⟩⟩

theorem witness_tick : (0 : ℚ) ≤ State.reset.frac ∧ State.reset.frac < 1 / 32 ∧ (0 : ℚ) ≤ 1 / 64 ∧ ∀ d ∈ [(1 / 64 : ℚ), 0, 2], 0 ≤ d := by
  refine ⟨le_refl _, by decide +kernel, by norm_num, by decide +kernel⟩

/-- BR-13. -/
theorem witness_SelfBranch :
    Ready (at0 0x40000000#32 []) ∧ decode (at0 0x40000000#32 []).cfg.encoding (at0 0x40000000#32 []).fetchWord = .instr (.bpx (m1 0)) ∧
    (at0 0x40000000#32 []).ea (m1 0) = ⟨(at0 0x40000000#32 []).pb, (at0 0x40000000#32 []).p⟩ :=
  ⟨ready_at0 _ _, by decide, by decide⟩

theorem witness_EmptyMemory : Ready State.reset ∧ decode State.reset.cfg.encoding 0 = .noHandler 0 0 ∧
    ∀ addr, State.reset.memRead State.reset.pb.num addr = 0 :=
  ⟨⟨rfl, rfl⟩, by decide, State.memRead_reset _⟩

/-- A state that is not stopped, a halted and a refused one, and a run that ends before its bound. -/
theorem witness_Run : (at0 0x70000000#32 []).stopped = false ∧ { State.reset with halted := true }.halted = true ∧
    { State.reset with refused := true }.refused = true ∧ (runFor 3 { at0 0x70000000#32 [] with icount := 0 }).2 < 3 := by
  decide

/-- The last legal and the first illegal `P`; an illegal bank; a negative tick. -/
theorem witness_HostTransactions :
    hostAct (.setPc 65535 2) State.reset = some { State.reset with p := 65535, pb := .two } ∧
    hostAct (.setPc 65536 1) State.reset = none ∧ hostAct (.setPc 0 3) State.reset = none ∧ (-1 / 32 : ℚ) < 0 := by
  refine ⟨rfl, rfl, rfl, by norm_num⟩

/-- The last legal address and the first illegal one; a bank, a k and a T on either side of their ranges; a literal's place; an
operation that takes a literal and one that does not. -/
theorem witness_Assembler :
    specEncoding.valid = true ∧ addrFits 32767 = true ∧ 32767 < 32768 ∧ ((0 : Nat) ≠ 1 ∧ (0 : Nat) ≠ 2) ∧ ((3 : Nat) ≠ 1 ∧ (3 : Nat) ≠ 2) ∧
    ((0 : Nat) = 0 ∨ 3 < 0) ∧ (3 : Nat) < 4 ∧ (32767 : Nat) ≤ 32767 ∧ Op.cad ∉ [Op.shl, .shr, .halt, .reset] ∧ Op.bir ∉ [Op.cad, .add, .dim, .tmu] ∧
    assemble specEncoding 0 (.onAddress .bpx (.address 2 32767 (some 3))) = .word 0xC0037FFF#32 := by decide

end Sys2Proof.Tests
end

section
/-! PROOFS. The encoder and the decoder (30_encoding.md R80 to R98), and the word helpers of 00_scope.md: split, join and lanes
(R10, R11, R14), FRAC_ROUND and the fractions (R12, R13), and TMU, which multiplies fractions (R144). -/

namespace Sys2Proof.Proofs

open Sys2Proof Sys2Proof.Machine

/-! ### The decoder undoes the encoder -/

/-- The round trip of the fields, for every instruction (R84, R93). -/
theorem fieldsRoundTrip (i : Instr) : Laws.FieldsRoundTrip.Statement i := by
  cases i with
  | cad m => exact Laws.FieldsRoundTrip.cad m
  | add m => exact Laws.FieldsRoundTrip.add m
  | dim m => exact Laws.FieldsRoundTrip.dim m
  | tmu m => exact Laws.FieldsRoundTrip.tmu m
  | lst m => exact Laws.FieldsRoundTrip.lst m
  | fst m => exact Laws.FieldsRoundTrip.fst m
  | sto m => exact Laws.FieldsRoundTrip.sto m
  | shl => exact Laws.FieldsRoundTrip.shl
  | shr => exact Laws.FieldsRoundTrip.shr
  | bpx m => exact Laws.FieldsRoundTrip.bpx m
  | blm m => exact Laws.FieldsRoundTrip.blm m
  | bze m => exact Laws.FieldsRoundTrip.bze m
  | jsb m => exact Laws.FieldsRoundTrip.jsb m
  | bir m => exact Laws.FieldsRoundTrip.bir m
  | ior x addr => exact Laws.FieldsRoundTrip.ior x addr
  | iow x addr => exact Laws.FieldsRoundTrip.iow x addr
  | lix imm t m => exact Laws.FieldsRoundTrip.lix imm t m
  | cix t => exact Laws.FieldsRoundTrip.cix t
  | halt => exact Laws.FieldsRoundTrip.halt
  | reset => exact Laws.FieldsRoundTrip.reset

/-- A word whose opcode has a handler decodes to that operation with the word's fields (R89, R113). -/
theorem decode_of_handlerOf {e : Encoding} {w : Word} {f : Fields} {o : Op} (hf : decodeFields e.layout w = f)
    (ho : handlerOf e.opcodeMap f.cls f.op = some o) : decode e w = .instr (f.toInstr o) := by
  simp only [decode, hf, ho]

/-- Settles O1: the fields come back from the word, their opcode has the instruction's own handler, and the handler reads the
instruction back from the fields. -/
theorem decodeOfEncodeIsTheInstruction : Obligations.DecodeOfEncodeIsTheInstruction := by
  intro e i he hi
  obtain ⟨hlayout, hmap⟩ : e.layout.valid = true ∧ e.opcodeMap.valid = true := by simpa [Encoding.valid] using he
  obtain ⟨hopcode, hinstr⟩ := fieldsRoundTrip i hi e.opcodeMap
  have hhandler : handlerOf e.opcodeMap (i.fields e.opcodeMap).cls (i.fields e.opcodeMap).op = some i.op := by
    have h := handlerOf_opcodeOf hmap i.op
    rwa [← hopcode] at h
  calc decode e (encode e i) = .instr ((i.fields e.opcodeMap).toInstr i.op) :=
        decode_of_handlerOf (decodeFields_encodeFields hlayout _) hhandler
    _ = .instr i := by rw [hinstr]

/-! ### Halves -/

@[simp] theorem split_join (l r : Int) : split (join l r) = (s16 (trunc16 l), s16 (trunc16 r)) := by
  simp [split]

/-- The value of a packed word is that of its masked halves (R11). -/
theorem toNat_join (l r : Int) : ((join l r).toNat : Int) = (l % 65536) * 65536 + r % 65536 := by
  have hr : (trunc16 r).toNat < 2 ^ 16 := (trunc16 r).isLt
  rw [join, BitVec.toNat_append, ← Nat.shiftLeft_add_eq_or_of_lt hr, Nat.shiftLeft_eq]
  simp only [trunc16, BitVec.toNat_ofInt]
  omega

/-- Settles O12: a joined word splits into its narrowed halves, and narrowing keeps a half in the signed range. -/
theorem splitOfJoinIsTheHalves : Obligations.SplitOfJoinIsTheHalves := by
  refine ⟨fun _ => rfl, toNat_join, fun l r hl hl' hr hr' => ?_⟩
  rw [split_join, s16_trunc16 hl hl', s16_trunc16 hr hr']

/-- Settles O13: `lanes` joins what the operator makes of each pair of halves. -/
theorem lanesNeverExchangeBits : Obligations.LanesNeverExchangeBits := fun _ _ _ => split_join _ _

/-! ### Rounding -/

/-- FRAC_ROUND as a function of the exact quotient (R13): `roundQuotient_eq_roundRat`. -/
def roundRat (rule : FracRound) (q : ℚ) : Int :=
  match rule with
  | .truncate => if 0 ≤ q then ⌊q⌋ else ⌈q⌉
  | .floor => ⌊q⌋
  | .other k => if q < Config.roundThreshold k ⌊q⌋ then ⌊q⌋ else ⌈q⌉

theorem floor_div_of_pos (n : Int) {d : Int} (hd : 0 < d) : ⌊(n / d : ℚ)⌋ = n / d := by
  lift d to ℕ using hd.le
  exact_mod_cast Rat.floor_intCast_div_natCast n d

theorem ceil_div_of_pos (n : Int) {d : Int} (hd : 0 < d) : ⌈(n / d : ℚ)⌉ = n / d + if d ∣ n then 0 else 1 := by
  lift d to ℕ using hd.le
  have h := Rat.ceil_intCast_div_natCast n d
  rw [Int.neg_ediv, Int.sign_eq_one_of_pos hd] at h
  push_cast
  rw [h]
  omega

/-- Rounding `n / d` depends on the exact quotient alone, however it is written as a fraction. -/
theorem roundQuotient_eq_roundRat (rule : FracRound) (n : Int) {d : Int} (hd : 0 < d) :
    roundQuotient rule n d = roundRat rule (n / d) := by
  have hd' : (0 : ℚ) < d := by exact_mod_cast hd
  cases rule with
  | truncate =>
    have hn : (0 : ℚ) ≤ n / d ↔ 0 ≤ n := by rw [le_div_iff₀ hd', zero_mul, Int.cast_nonneg_iff]
    simp only [roundQuotient, roundRat, hn, floor_div_of_pos n hd, ceil_div_of_pos n hd, Int.tdiv_eq_ediv,
      Int.sign_eq_one_of_pos hd]
    by_cases h : 0 ≤ n <;> simp [h]
  | floor => exact (floor_div_of_pos n hd).symm
  | other k =>
    simp only [roundQuotient, roundRat, floor_div_of_pos n hd, ceil_div_of_pos n hd, div_lt_iff₀ hd', ← Int.dvd_iff_emod_eq_zero]
    by_cases h : d ∣ n <;> simp [h]

theorem roundQuotient_num_den (rule : FracRound) (q : ℚ) : roundQuotient rule q.num q.den = roundRat rule q := by
  rw [roundQuotient_eq_roundRat rule q.num (by exact_mod_cast q.pos)]
  exact congrArg (roundRat rule) q.num_div_den

@[simp] theorem roundRat_intCast (rule : FracRound) (n : Int) : roundRat rule n = n := by
  cases rule <;> simp [roundRat]

theorem floor_le_roundRat (rule : FracRound) (q : ℚ) : ⌊q⌋ ≤ roundRat rule q := by
  have h := Int.floor_le_ceil q
  cases rule with
  | truncate => unfold roundRat; split <;> omega
  | floor => exact le_refl _
  | other k => unfold roundRat; split <;> omega

theorem roundRat_le_ceil (rule : FracRound) (q : ℚ) : roundRat rule q ≤ ⌈q⌉ := by
  have h := Int.floor_le_ceil q
  cases rule with
  | truncate => unfold roundRat; split <;> omega
  | floor => exact h
  | other k => unfold roundRat; split <;> omega

/-- Between two neighbouring integers a rule switches from the lower to the upper once, at 0 or at its threshold. -/
theorem roundRat_mono_of_floor_eq (rule : FracRound) {p q : ℚ} (h : p ≤ q) (hfloor : ⌊p⌋ = ⌊q⌋) :
    roundRat rule p ≤ roundRat rule q := by
  have hle : roundRat rule p ≤ ⌈q⌉ := (roundRat_le_ceil rule p).trans (Int.ceil_mono h)
  cases rule with
  | truncate =>
    by_cases hq : 0 ≤ q
    · have hp : 0 ≤ p := Int.floor_nonneg.mp (hfloor ▸ Int.floor_nonneg.mpr hq)
      simp [roundRat, hp, hq, hfloor]
    · rwa [show roundRat .truncate q = ⌈q⌉ from if_neg hq]
  | floor => exact hfloor.le
  | other k =>
    by_cases hq : q < Config.roundThreshold k ⌊q⌋
    · simp [roundRat, hfloor, hq, h.trans_lt hq]
    · rwa [show roundRat (.other k) q = ⌈q⌉ from if_neg hq]

/-- Every rounding rule is monotone (R13). -/
theorem roundRat_mono (rule : FracRound) : Monotone (roundRat rule) := by
  intro p q h
  rcases (Int.floor_mono h).eq_or_lt with hfloor | hfloor
  · exact roundRat_mono_of_floor_eq rule h hfloor
  · calc roundRat rule p ≤ ⌈p⌉ := roundRat_le_ceil rule p
      _ ≤ ⌊p⌋ + 1 := Int.ceil_le_floor_add_one p
      _ ≤ ⌊q⌋ := hfloor
      _ ≤ roundRat rule q := floor_le_roundRat rule q

theorem roundRat_truncate_of_nonneg {q : ℚ} (h : 0 ≤ q) : roundRat .truncate q = ⌊q⌋ := if_pos h

theorem roundRat_truncate_of_nonpos {q : ℚ} (h : q ≤ 0) : roundRat .truncate q = ⌈q⌉ := by
  rcases h.eq_or_lt with rfl | h
  · simp [roundRat]
  · exact if_neg h.not_ge

/-- Settles O14: every clause is one about `roundRat` of the exact quotient. -/
theorem roundingIsIdentityOnIntegersAndMonotone : Obligations.RoundingIsIdentityOnIntegersAndMonotone := by
  unfold Obligations.RoundingIsIdentityOnIntegersAndMonotone
  simp only [roundQuotient_num_den]
  exact ⟨roundRat_intCast, fun rule _ _ h => roundRat_mono rule h, fun _ => roundRat_truncate_of_nonneg,
    fun _ => roundRat_truncate_of_nonpos⟩

/-! ### Fractions -/

theorem fromFraction_eq (rule : FracRound) (f : ℚ) : fromFraction rule f = clamp16 (roundRat rule (f * 32768)) := by
  rw [fromFraction, roundQuotient_num_den]

theorem clamp16_of_ge {n : Int} (h : 32768 ≤ n) : clamp16 n = 32767 := if_pos (by omega)

theorem clamp16_of_le {n : Int} (h : n ≤ -32768) : clamp16 n = -32768 := by
  unfold clamp16
  split_ifs <;> omega

theorem fromFraction_of_ge_one (rule : FracRound) {f : ℚ} (h : 1 ≤ f) : fromFraction rule f = 32767 := by
  rw [fromFraction_eq]
  apply clamp16_of_ge
  calc 32768 ≤ ⌊f * 32768⌋ := Int.le_floor.mpr (by push_cast; linarith)
    _ ≤ roundRat rule (f * 32768) := floor_le_roundRat _ _

theorem fromFraction_of_lt_neg_one (rule : FracRound) {f : ℚ} (h : f < -1) : fromFraction rule f = -32768 := by
  rw [fromFraction_eq]
  apply clamp16_of_le
  calc roundRat rule (f * 32768) ≤ ⌈f * 32768⌉ := roundRat_le_ceil _ _
    _ ≤ -32768 := Int.ceil_le.mpr (by push_cast; linarith)

theorem fromFraction_toFraction (rule : FracRound) {v : Int} (h1 : -32768 ≤ v) (h2 : v ≤ 32767) :
    fromFraction rule (toFraction v) = v := by
  have hscale : toFraction v * 32768 = v := div_mul_cancel₀ _ (by norm_num)
  rw [fromFraction_eq, hscale, roundRat_intCast, clamp16_of_range h1 h2]

/-- Settles O15: a rounded value lies between the floor and the ceiling, so beyond the bounds it is clamped. -/
theorem fromFractionClamps : Obligations.FromFractionClamps :=
  ⟨fun rule _ => fromFraction_of_ge_one rule, fun rule _ => fromFraction_of_lt_neg_one rule,
    fun rule _ => fromFraction_toFraction rule⟩

/-! ### TMU -/

/-- The two forms R144 gives of one lane of TMU agree. -/
theorem tmul_eq_fromFraction (rule : FracRound) (a m : Int) : tmul rule a m = fromFraction rule (toFraction a * toFraction m) := by
  have hscale : toFraction a * toFraction m * 32768 = ((a * m : Int) : ℚ) / (32768 : Int) := by
    simp only [toFraction]
    push_cast
    ring
  rw [tmul, roundQuotient_eq_roundRat rule (a * m) (by norm_num), fromFraction_eq, hscale]

/-- A lane of TMU saturates, so it survives the narrowing to its half (R145). -/
theorem s16_trunc16_tmul (rule : FracRound) (a m : Int) : s16 (trunc16 (tmul rule a m)) = tmul rule a m :=
  s16_trunc16 (clamp16_lower _) (clamp16_upper _)

theorem split_lanes_tmul (rule : FracRound) (a m : Word) :
    split (lanes (tmul rule) a m) = (tmul rule (split a).1 (split m).1, tmul rule (split a).2 (split m).2) := by
  rw [lanes, split_join, s16_trunc16_tmul, s16_trunc16_tmul]
  rfl

/-- What an instruction that only writes `A` leaves: P and the counters advance and all else stays (R113, R114, R140). -/
theorem setAcc_thenNext_frame (s : State) (v : Word) :
    Advanced s (s.setAcc v).thenNext ∧ Counted s (s.setAcc v).thenNext ∧ SameIndex s (s.setAcc v).thenNext none ∧
    SameMemory s (s.setAcc v).thenNext ∧ SameClock s (s.setAcc v).thenNext ∧ SameDevice s (s.setAcc v).thenNext ∧
    SameMode s (s.setAcc v).thenNext := by
  refine ⟨⟨rfl, rfl⟩, ⟨rfl, rfl⟩, fun r _ => ?_, ⟨rfl, rfl⟩, ⟨rfl, rfl⟩, ⟨rfl, rfl⟩, ⟨rfl, rfl, rfl⟩⟩
  simp

/-- Settles O23: TMU's integer lane is the product of the fractions, rounded and clamped. -/
theorem tmuMultipliesFractions : Obligations.TmuMultipliesFractions := by
  intro m s
  refine ⟨_, exec_tmu m s, ?_, setAcc_thenNext_frame s _⟩
  simp only [← tmul_eq_fromFraction]
  exact split_lanes_tmul s.cfg.fracRound s.a (s.operand m)

end Sys2Proof.Proofs
end

section
/-! PROOFS. The state (10_state.md): what a step and a transaction of the host change of it and what they keep (R20 to R34), the
invariant along every execution (R50, R121), the clock's tick (R235), and `ix[3]`, which influences nothing (R24). -/

namespace Sys2Proof.Proofs

open Sys2Proof Sys2Proof.Machine

/-! ### `ix[3]` influences nothing -/

/-- `o'` is `o` but for the value of `ix[3]`, where `o` is a next state (R24). -/
def ApartInIxThree (o o' : Host.Outcome State Fault Refusal) : Prop :=
  ∀ t, o = .next t → ∃ v, o' = .next (t.setIx .ix3 v)

@[simp] theorem memRead_setIx (s : State) (r : IxReg) (v : Half) (bank addr : Nat) :
    (s.setIx r v).memRead bank addr = s.memRead bank addr :=
  State.memRead_congr (State.setIx_m1 s r v) (State.setIx_m2 s r v) bank addr

@[simp] theorem fetchWord_setIx (s : State) (r : IxReg) (v : Half) : (s.setIx r v).fetchWord = s.fetchWord := by
  simp [State.fetchWord]

/-- `ix[3]` is never an address offset (R24, R86). -/
@[simp] theorem eaAddr_setIx_ix3 (s : State) (v : Half) (x : IndexSelect) (addr : Half) :
    (s.setIx .ix3 v).eaAddr x addr = s.eaAddr x addr := by
  cases x <;> rfl

@[simp] theorem ea_setIx_ix3 (s : State) (v : Half) (m : MemRef) : (s.setIx .ix3 v).ea m = s.ea m := by
  simp [State.ea]

@[simp] theorem operand_setIx_ix3 (s : State) (v : Half) (m : MemRef) : (s.setIx .ix3 v).operand m = s.operand m := by
  simp [State.operand, State.readEa]

@[simp] theorem ioValue_setIx (s : State) (r : IxReg) (v addr : Half) : (s.setIx r v).ioValue addr = s.ioValue addr := by
  simp [State.ioValue]

@[simp] theorem returnWord_setIx (s : State) (r : IxReg) (v : Half) : (s.setIx r v).returnWord = s.returnWord := by
  simp [State.returnWord]

@[simp] theorem engineAction_setIx (s : State) (r : IxReg) (v : Half) : (s.setIx r v).engineAction = s.engineAction := by
  simp [State.engineAction]

/-! The other updates of the state leave `ix[3]` as it stands, so they may come before or after a write of it. -/

theorem setAcc_setIx_ix3 (s : State) (v : Half) (w : Word) : (s.setIx .ix3 v).setAcc w = (s.setAcc w).setIx .ix3 v := rfl

theorem writeEa_setIx_ix3 (s : State) (v : Half) (e : EffAddr) (w : Word) :
    (s.setIx .ix3 v).writeEa e w = (s.writeEa e w).setIx .ix3 v := by
  obtain ⟨bank, addr⟩ := e
  cases bank <;> rfl

theorem afterIoRead_setIx_ix3 (s : State) (v addr : Half) :
    (s.setIx .ix3 v).afterIoRead addr = (s.afterIoRead addr).setIx .ix3 v := by
  simp only [State.afterIoRead, State.setIx_cfg]
  cases ioKind s.cfg addr <;> rfl

theorem ioWrite_setIx_ix3 (s : State) (v addr : Half) (w : Word) :
    (s.setIx .ix3 v).ioWrite addr w = (s.ioWrite addr w).setIx .ix3 v := by
  simp only [State.ioWrite, State.setIx_cfg]
  cases ioKind s.cfg addr <;> rfl

/-- A write of any index register hides what `ix[3]` held, or leaves it. -/
theorem setIx_setIx_ix3 (s : State) (r : IxReg) (v w : Half) : ∃ v', (s.setIx .ix3 v).setIx r w = (s.setIx r w).setIx .ix3 v' := by
  cases r with
  | ix3 => exact ⟨w, rfl⟩
  | ix0 | ix1 | ix2 => exact ⟨v, rfl⟩

theorem next_apart (s : State) (v : Half) : ApartInIxThree (.next s) (.next (s.setIx .ix3 v)) :=
  fun _ h => ⟨v, by rw [Host.Outcome.next.inj h]⟩

theorem finish_next_apart (s : State) (v : Half) : ApartInIxThree (finish (.next s)) (finish (.next (s.setIx .ix3 v))) :=
  next_apart s.thenNext v

theorem finish_jump_apart (s : State) (v p : Half) (b : Bank) :
    ApartInIxThree (finish (.jump p b s)) (finish (.jump p b (s.setIx .ix3 v))) :=
  next_apart (s.setPc p b).count v

theorem accFromOperand_apart (f : Word → Word → Word) (m : MemRef) (s : State) (v : Half) :
    ApartInIxThree (accFromOperand f m s) (accFromOperand f m (s.setIx .ix3 v)) := by
  simp only [accFromOperand, State.setIx_a, operand_setIx_ix3, setAcc_setIx_ix3]
  exact finish_next_apart _ v

theorem storeAtEa_apart (f : Word → Word → Word) (m : MemRef) (s : State) (v : Half) :
    ApartInIxThree (storeAtEa f m s) (storeAtEa f m (s.setIx .ix3 v)) := by
  simp only [storeAtEa, State.setIx_a, operand_setIx_ix3, ea_setIx_ix3, writeEa_setIx_ix3]
  exact finish_next_apart _ v

theorem branchIf_apart (taken : Bool) (m : MemRef) (s : State) (v : Half) :
    ApartInIxThree (branchIf taken m s) (branchIf taken m (s.setIx .ix3 v)) := by
  simp only [branchIf, ea_setIx_ix3]
  cases taken with
  | true => exact finish_jump_apart s v _ _
  | false => exact finish_next_apart s v

theorem execJsb_apart (m : MemRef) (s : State) (v : Half) : ApartInIxThree (execJsb m s) (execJsb m (s.setIx .ix3 v)) := by
  simp only [execJsb, ea_setIx_ix3, returnWord_setIx, writeEa_setIx_ix3]
  exact finish_jump_apart _ v _ _

theorem execBir_apart (m : MemRef) (s : State) (v : Half) : ApartInIxThree (execBir m s) (execBir m (s.setIx .ix3 v)) := by
  simp only [execBir, operand_setIx_ix3]
  split_ifs
  · exact finish_jump_apart s v _ _
  · exact finish_jump_apart s v _ _
  · exact fun _ h => nomatch h

theorem execIor_apart (x : IndexSelect) (addr : Half) (s : State) (v : Half) :
    ApartInIxThree (execIor x addr s) (execIor x addr (s.setIx .ix3 v)) := by
  simp only [execIor, eaAddr_setIx_ix3, ioValue_setIx, afterIoRead_setIx_ix3, setAcc_setIx_ix3]
  exact finish_next_apart _ v

theorem execIow_apart (x : IndexSelect) (addr : Half) (s : State) (v : Half) :
    ApartInIxThree (execIow x addr s) (execIow x addr (s.setIx .ix3 v)) := by
  simp only [execIow, eaAddr_setIx_ix3, State.setIx_a, ioWrite_setIx_ix3]
  exact finish_next_apart _ v

theorem finish_setIx_apart (s : State) (r : IxReg) (v w : Half) :
    ApartInIxThree (finish (.next (s.setIx r w))) (finish (.next ((s.setIx .ix3 v).setIx r w))) := by
  obtain ⟨v', h⟩ := setIx_setIx_ix3 s r v w
  rw [h]
  exact finish_next_apart _ v'

theorem execLix_apart (imm : Bool) (r : IxReg) (m : MemRef) (s : State) (v : Half) :
    ApartInIxThree (execLix imm r m s) (execLix imm r m (s.setIx .ix3 v)) := by
  simp only [execLix, ea_setIx_ix3, operand_setIx_ix3]
  exact finish_setIx_apart s r v _

/-- RESET clears `ix[3]`, whatever it held. -/
theorem execReset_apart (s : State) (v : Half) : ApartInIxThree (execReset s) (execReset (s.setIx .ix3 v)) :=
  next_apart s.resetTransition 0

/-- No instruction reads `ix[3]` (R24). -/
theorem exec_apart (i : Instr) (s : State) (v : Half) : ApartInIxThree (exec i s) (exec i (s.setIx .ix3 v)) := by
  cases i with
  | cad m | add m | dim m | tmu m => exact accFromOperand_apart _ m s v
  | lst m | fst m | sto m =>
    simp only [exec, execLst, execFst, execSto]
    exact storeAtEa_apart _ m s v
  | shl => exact finish_next_apart (s.setAcc (shiftLeft s.cfg.shiftScope s.a)) v
  | shr => exact finish_next_apart (s.setAcc (shiftRight s.cfg.shiftScope s.cfg.shrFill s.a)) v
  | halt => exact finish_next_apart s.setHalted v
  | bpx m => exact branchIf_apart true m s v
  | blm m => exact branchIf_apart s.accNegative m s v
  | bze m => exact branchIf_apart s.accZero m s v
  | jsb m => exact execJsb_apart m s v
  | bir m => exact execBir_apart m s v
  | ior x addr => exact execIor_apart x addr s v
  | iow x addr => exact execIow_apart x addr s v
  | lix imm r m => exact execLix_apart imm r m s v
  | cix r => exact finish_setIx_apart s r v 0
  | reset => exact execReset_apart s v

theorem step_apart (s : State) (v : Half) : ApartInIxThree (step s) (step (s.setIx .ix3 v)) := by
  simp only [step, engineAction_setIx]
  cases s.engineAction with
  | stop => exact fun _ h => nomatch h
  | idle => exact next_apart s v
  | run i => exact exec_apart i s v
  | skip => exact finish_next_apart s v

/-- Settles O40: neither the engine's choice nor any handler depends on `ix[3]`, so the step from the changed state is the same
but for it. -/
theorem ixThreeInfluencesNothing : Obligations.IxThreeInfluencesNothing := by
  intro s t v h
  obtain ⟨w, hw⟩ := step_apart s v t h
  exact ⟨t.setIx .ix3 w, hw, rfl⟩

/-! ### What a step keeps -/

/-- What a skipped word and an idle step keep, and every instruction but those of `Q`, every step keeps or it ran one of `Q`
(R110, R113, R115). -/
theorem step_keeps_or_runs {R : State → State → Prop} {Q : Instr → Prop} (hidle : ∀ s, R s s) (hskip : ∀ s : State, R s s.thenNext)
    (hexec : ∀ i s t, exec i s = .next t → R s t ∨ Q i) {s t : State} (h : step s = .next t) :
    R s t ∨ ∃ i, decode s.cfg.encoding s.fetchWord = .instr i ∧ Q i := by
  obtain ⟨-, rfl⟩ | ⟨-, i, hi, hexec_i⟩ | ⟨-, -, rfl⟩ := step_next_cases h
  · exact .inl (hidle _)
  · exact (hexec i s t hexec_i).imp id fun hq => ⟨i, hi, hq⟩
  · exact .inl (hskip s)

/-- The cases of `exec_next_cases` by name: what a completed instruction did to `s`. -/
inductive Effect (s : State) : Instr → State → Prop where
  | writesAcc {i : Instr} (hop : i.op ∈ [Op.cad, .add, .dim, .tmu, .shl, .shr]) (v : Word) : Effect s i (s.setAcc v).thenNext
  | stores {i : Instr} {m : MemRef} (hi : i = .lst m ∨ i = .fst m ∨ i = .sto m) (v : Word) :
      Effect s i (s.writeEa (s.ea m) v).thenNext
  | calls (m : MemRef) :
      Effect s (.jsb m) ((s.writeEa (s.ea m) s.returnWord).setPc ((s.ea m).addr + 1) (s.ea m).bank).count
  | transfers {i : Instr} (hop : i.op ∈ [Op.bpx, .blm, .bze, .bir]) (p : Half) (b : Bank) : Effect s i (s.setPc p b).count
  | readsIo (x : IndexSelect) (addr : Half) :
      Effect s (.ior x addr) ((s.afterIoRead (s.eaAddr x addr)).setAcc (s.ioValue (s.eaAddr x addr))).thenNext
  | writesIo (x : IndexSelect) (addr : Half) : Effect s (.iow x addr) (s.ioWrite (s.eaAddr x addr) s.a).thenNext
  | writesIx {i : Instr} (hop : i.op ∈ [Op.lix, .cix]) (r : IxReg) (v : Half) : Effect s i (s.setIx r v).thenNext
  | halts : Effect s .halt s.setHalted.thenNext
  | resets : Effect s .reset s.resetTransition

theorem exec_effect {i : Instr} {s t : State} (h : exec i s = .next t) : Effect s i t := by
  obtain ⟨hop, v, rfl⟩ | ⟨m, v, hi, rfl⟩ | ⟨m, rfl, rfl⟩ | ⟨hop, p, b, rfl⟩ | ⟨x, addr, rfl, rfl⟩ | ⟨x, addr, rfl, rfl⟩ |
    ⟨hop, r, v, rfl⟩ | ⟨rfl, rfl⟩ | ⟨rfl, rfl⟩ := exec_next_cases h
  · exact .writesAcc hop v
  · exact .stores hi v
  · exact .calls m
  · exact .transfers hop p b
  · exact .readsIo x addr
  · exact .writesIo x addr
  · exact .writesIx hop r v
  · exact .halts
  · exact .resets

/-- Only LST, FST, STO and JSB write memory (R34, R160, R186). -/
theorem exec_sameMemory_or_stores {i : Instr} {s t : State} (h : exec i s = .next t) :
    SameMemory s t ∨ ∃ m, i = .lst m ∨ i = .fst m ∨ i = .sto m ∨ i = .jsb m := by
  cases exec_effect h with
  | @stores _ m hi v => exact .inr ⟨m, by tauto⟩
  | calls m => exact .inr ⟨m, by simp⟩
  | _ => exact .inl (by simp [SameMemory])

/-- Settles O50: memory stays under every instruction but the four writers. -/
theorem onlyStoresAndJsbWriteMemory : Obligations.OnlyStoresAndJsbWriteMemory := by
  intro s t h
  refine (step_keeps_or_runs (R := SameMemory) (fun _ => ⟨rfl, rfl⟩) (fun _ => ⟨rfl, rfl⟩)
    (fun _ _ _ => exec_sameMemory_or_stores) h).imp id ?_
  rintro ⟨i, hi, m, hm⟩
  exact ⟨m, by simpa [hi] using hm⟩

/-- Only the arithmetic, the shifts, IOR and RESET write `A` (R23). -/
theorem exec_sameAcc_or_writes {i : Instr} {s t : State} (h : exec i s = .next t) :
    t.a = s.a ∨ i.op ∈ [Op.cad, .add, .dim, .tmu, .shl, .shr, .ior, .reset] := by
  cases exec_effect h with
  | writesAcc hop v => exact .inr (List.mem_append_left [Op.ior, .reset] hop)
  | readsIo | resets => exact .inr (by simp [Instr.op])
  | _ => exact .inl (by simp)

/-- Only LIX, CIX and RESET write an index register (R24). -/
theorem exec_sameIndex_or_writes {i : Instr} {s t : State} (h : exec i s = .next t) :
    SameIndex s t none ∨ i.op ∈ [Op.lix, .cix, .reset] := by
  cases exec_effect h with
  | writesIx hop r v => exact .inr (List.mem_append_left [Op.reset] hop)
  | resets => exact .inr (by simp [Instr.op])
  | _ => exact .inl (by simp [SameIndex])

/-- Settles O51: `A` and the index registers stay under every instruction but their writers. -/
theorem onlyTheNamedInstructionsWriteRegisters : Obligations.OnlyTheNamedInstructionsWriteRegisters := by
  intro s t h
  refine ⟨?_, ?_⟩
  · exact step_keeps_or_runs (R := fun s t => t.a = s.a) (fun _ => rfl) (fun _ => rfl) (fun _ _ _ => exec_sameAcc_or_writes) h
  · exact step_keeps_or_runs (R := fun s t => SameIndex s t none) (fun _ _ _ => rfl) (fun _ _ _ => by simp)
      (fun _ _ _ => exec_sameIndex_or_writes) h

/-- No instruction writes the refused mark or a parameter (R21, R5). -/
theorem exec_keeps_refused_and_cfg {i : Instr} {s t : State} (h : exec i s = .next t) : t.refused = s.refused ∧ t.cfg = s.cfg := by
  cases exec_effect h <;> simp

theorem step_keeps_refused_and_cfg {s t : State} (h : step s = .next t) : t.refused = s.refused ∧ t.cfg = s.cfg :=
  (step_keeps_or_runs (R := fun s t => t.refused = s.refused ∧ t.cfg = s.cfg) (Q := fun _ => False) (fun _ => ⟨rfl, rfl⟩)
    (fun _ => ⟨rfl, rfl⟩) (fun _ _ _ h => .inl (exec_keeps_refused_and_cfg h)) h).resolve_right fun ⟨_, _, hfalse⟩ => hfalse

/-- The updates that `count` follows leave the counters and the parameters to it. -/
theorem counted_count {s u : State} (hi : u.icount = s.icount) (hc : u.ccount = s.ccount) (hcfg : u.cfg = s.cfg) :
    Counted s u.count := by
  simp [Counted, hi, hc, hcfg]

/-- Settles O11: every shape of a completed instruction but RESET ends with `count`, after updates that leave the counters. -/
theorem completedInstructionsAreCounted : Obligations.CompletedInstructionsAreCounted := by
  intro i s t hi h
  cases exec_effect h with
  | resets => exact absurd rfl hi
  | _ => exact counted_count (by simp) (by simp) (by simp)

/-! ### The refused mark -/

theorem stepMarked_of_next {s t : State} (h : step s = .next t) : stepMarked s = t := by
  simp [stepMarked, h]

theorem stepMarked_of_refused {s : State} {r : Refusal} (h : step s = .refused r) : stepMarked s = s.markRefused := by
  simp [stepMarked, h]

theorem markRefused_of_refused {s : State} (h : s.refused = true) : s.markRefused = s := by
  rw [State.markRefused, ← h]

/-- Settles O9: `stepMarked` follows the step's outcome, and in a marked state the engine's choice is to stop. -/
theorem refusedStepOnlySetsTheMark : Obligations.RefusedStepOnlySetsTheMark := by
  refine ⟨fun _ _ => stepMarked_of_refused, fun _ _ => stepMarked_of_next, fun s h => ⟨step_of_refused h, ?_⟩⟩
  rw [stepMarked_of_refused (step_of_refused h), markRefused_of_refused h]

/-! ### What the host's transactions keep -/

/-- Everything a transaction of the host that there is can have done (R120). -/
theorem hostAct_some_cases {a : HostAction} {s t : State} (h : hostAct a s = some t) :
    (a = .step ∧ t = stepMarked s) ∨
    (∃ n, a = .run n ∧ t = (runFor n.toNat s).1) ∨
    (a = .reset ∧ t = s.resetTransition) ∨
    (∃ delta, a = .tick delta ∧ 0 ≤ delta ∧ t = s.tick delta) ∨
    (∃ bank addr value, a = .write bank addr value ∧ t = s.memWrite bank addr (trunc32 value)) ∨
    (∃ p bank b, a = .setPc p bank ∧ bankOfNat bank = some b ∧ p < 65536 ∧ t = s.setPc (BitVec.ofNat 16 p) b) := by
  cases a with
  | step => exact .inl ⟨rfl, (Option.some.inj h).symm⟩
  | run n => exact .inr (.inl ⟨n, rfl, (Option.some.inj h).symm⟩)
  | reset => exact .inr (.inr (.inl ⟨rfl, (Option.some.inj h).symm⟩))
  | tick delta =>
    obtain ⟨hdelta, ht⟩ := Option.ite_none_right_eq_some.mp h
    exact .inr (.inr (.inr (.inl ⟨delta, rfl, hdelta, (Option.some.inj ht).symm⟩)))
  | write bank addr value => exact .inr (.inr (.inr (.inr (.inl ⟨bank, addr, value, rfl, (Option.some.inj h).symm⟩))))
  | setPc p bank =>
    simp only [hostAct, State.hostSetPc] at h
    split at h
    · next b hb =>
      obtain ⟨hp, ht⟩ := Option.ite_none_right_eq_some.mp h
      exact .inr (.inr (.inr (.inr (.inr ⟨p, bank, b, rfl, hb, hp, (Option.some.inj ht).symm⟩))))
    · cases h

/-- What a marked step, Reset, a tick, a write and a setting of the pc each keep, every transaction of the host keeps (R120). -/
theorem hostAct_keeps {P : State → Prop} (hstep : ∀ s, P s → P (stepMarked s)) (hreset : ∀ s, P s → P s.resetTransition)
    (htick : ∀ s delta, 0 ≤ delta → P s → P (s.tick delta)) (hwrite : ∀ s bank addr v, P s → P (s.memWrite bank addr v))
    (hsetPc : ∀ s p b, P s → P (s.setPc p b)) {a : HostAction} {s t : State} (hs : P s) (h : hostAct a s = some t) : P t := by
  obtain ⟨-, rfl⟩ | ⟨n, -, rfl⟩ | ⟨-, rfl⟩ | ⟨delta, -, hdelta, rfl⟩ | ⟨bank, addr, value, -, rfl⟩ | ⟨p, bank, b, -, -, -, rfl⟩ :=
    hostAct_some_cases h
  · exact hstep s hs
  · exact runFor_keeps P hstep n.toNat s hs
  · exact hreset s hs
  · exact htick s delta hdelta hs
  · exact hwrite s bank addr _ hs
  · exact hsetPc s _ b hs

/-- `t` has the parameters of `s`, and its mark if `s` has it (R5, R21). -/
def KeepsParamsAndMark (s t : State) : Prop := t.cfg = s.cfg ∧ (s.refused = true → t.refused = true)

theorem KeepsParamsAndMark.trans {s t u : State} (h : KeepsParamsAndMark s t) (h' : KeepsParamsAndMark t u) :
    KeepsParamsAndMark s u :=
  ⟨h'.1.trans h.1, h'.2 ∘ h.2⟩

theorem keepsParamsAndMark_stepMarked (s : State) : KeepsParamsAndMark s (stepMarked s) := by
  rcases stepMarked_cases s with h | h
  · obtain ⟨hrefused, hcfg⟩ := step_keeps_refused_and_cfg h
    exact ⟨hcfg, hrefused.trans⟩
  · rw [h]
    exact ⟨rfl, fun _ => rfl⟩

/-- Settles O53: each of the host's transactions keeps the parameters and the mark, a step because every instruction does. -/
theorem parametersStayAndTheMarkIsKept : Obligations.ParametersStayAndTheMarkIsKept := by
  intro a s t h
  refine hostAct_keeps (P := KeepsParamsAndMark s) (fun u hu => hu.trans (keepsParamsAndMark_stepMarked u)) ?_ ?_ ?_ ?_
    ⟨rfl, id⟩ h
  · exact fun u hu => hu.trans ⟨rfl, id⟩
  · exact fun u delta _ hu => hu.trans ⟨rfl, id⟩
  · exact fun u bank addr v hu => hu.trans (by simp [KeepsParamsAndMark])
  · exact fun u p b hu => hu.trans ⟨rfl, id⟩

/-! ### The halted flag -/

/-- No instruction but HALT sets `halted` (R28). -/
theorem exec_setsHalted_only_halt {i : Instr} {s t : State} (h : exec i s = .next t) :
    (t.halted = true → s.halted = true) ∨ i = .halt := by
  cases exec_effect h with
  | halts => exact .inr rfl
  | _ => exact .inl (by simp)

theorem step_setsHalted_only_halt {s t : State} (h : step s = .next t) (hs : s.halted = false) (ht : t.halted = true) :
    decode s.cfg.encoding s.fetchWord = .instr .halt := by
  obtain hkeeps | ⟨i, hi, rfl⟩ := step_keeps_or_runs (R := fun s t => t.halted = true → s.halted = true) (Q := (· = .halt))
    (fun _ => id) (fun _ => id) (fun _ _ _ => exec_setsHalted_only_halt) h
  · exact absurd (hkeeps ht) (by simp [hs])
  · exact hi

/-- The Halted state has no step that leaves it: a step runs no instruction there (R110). -/
theorem step_keeps_halted {s t : State} (h : step s = .next t) (hs : s.halted = true) : t.halted = true := by
  obtain ⟨-, rfl⟩ | ⟨hready, -⟩ | ⟨hready, -⟩ := step_next_cases h
  · exact hs
  · exact absurd hs (by simp [hready.1])
  · exact absurd hs (by simp [hready.1])

theorem stepMarked_keeps_halted (s : State) (hs : s.halted = true) : (stepMarked s).halted = true := by
  rcases stepMarked_cases s with h | h
  · exact step_keeps_halted h hs
  · rw [h]
    exact hs

theorem hostAct_setsHalted_only_steps {a : HostAction} {s t : State} (h : hostAct a s = some t) (hs : s.halted = false)
    (ht : t.halted = true) : a = .step ∨ ∃ n, a = .run n := by
  obtain ⟨ha, -⟩ | ⟨n, ha, -⟩ | ⟨-, rfl⟩ | ⟨_, -, -, rfl⟩ | ⟨_, _, _, -, rfl⟩ | ⟨_, _, _, -, -, -, rfl⟩ := hostAct_some_cases h
  · exact .inl ha
  · exact .inr ⟨n, ha⟩
  all_goals simp [hs] at ht

theorem hostAct_clearsHalted_only_reset {a : HostAction} {s t : State} (h : hostAct a s = some t) (hs : s.halted = true)
    (ht : t.halted = false) : a = .reset := by
  obtain ⟨-, rfl⟩ | ⟨n, -, rfl⟩ | ⟨ha, -⟩ | ⟨_, -, -, rfl⟩ | ⟨_, _, _, -, rfl⟩ | ⟨_, _, _, -, -, -, rfl⟩ := hostAct_some_cases h
  · simp [stepMarked_keeps_halted s hs] at ht
  · simp [runFor_keeps (·.halted = true) stepMarked_keeps_halted n.toNat s hs] at ht
  · exact ha
  all_goals simp [hs] at ht

/-- Settles O48: HALT alone sets the flag, a halted state runs no instruction, and the host's other transactions leave it. -/
theorem haltedIsSetByHaltAndClearedByReset : Obligations.HaltedIsSetByHaltAndClearedByReset :=
  ⟨fun _ _ => step_setsHalted_only_halt, fun _ _ _ => hostAct_setsHalted_only_steps, fun _ _ => step_keeps_halted,
    fun _ _ _ => hostAct_clearsHalted_only_reset, fun s => ⟨rfl, exec_reset s, rfl⟩, fun s => ⟨_, exec_halt s, rfl⟩⟩

/-! ### The clock -/

/-- What a tick leaves of the elapsed time is what its whole ticks do not take (R235). -/
theorem tick_frac_eq_fract (s : State) (delta : ℚ) : (s.tick delta).frac = Int.fract ((s.frac + delta) * 32) / 32 := by
  rw [State.tick_frac, Int.fract]
  ring

theorem tick_frac_nonneg (s : State) (delta : ℚ) : 0 ≤ (s.tick delta).frac := by
  rw [tick_frac_eq_fract]
  exact div_nonneg (Int.fract_nonneg _) (by norm_num)

theorem tick_frac_lt (s : State) (delta : ℚ) : (s.tick delta).frac < 1 / 32 := by
  rw [tick_frac_eq_fract]
  exact div_lt_div_of_pos_right (Int.fract_lt_one _) (by norm_num)

theorem wholeTicks_add_frac (s : State) (delta : ℚ) : (s.wholeTicks delta : ℚ) / 32 + (s.tick delta).frac = s.frac + delta :=
  add_sub_cancel _ _

theorem wholeTicks_nonneg {s : State} {delta : ℚ} (hs : 0 ≤ s.frac) (hdelta : 0 ≤ delta) : 0 ≤ s.wholeTicks delta :=
  Int.floor_nonneg.mpr (by positivity)

/-- RTC counts modulo 65536 (R32). -/
theorem trunc16_u16_add_natCast (h : Half) (k : Nat) : trunc16 (u16 h + k) = h + BitVec.ofNat 16 k := by
  simp [trunc16, u16, BitVec.ofInt_add]

theorem tick_moves_only_clock (s : State) (delta : ℚ) : { s.tick delta with rtc := s.rtc, frac := s.frac } = s := rfl

/-- Settles O54: the whole ticks are the floor of the elapsed 1/32 seconds, and the new remainder is its fractional part. -/
theorem tickAccountsForAllTime : Obligations.TickAccountsForAllTime := by
  intro s delta hs hdelta
  obtain ⟨k, hk⟩ := Int.eq_ofNat_of_zero_le (wholeTicks_nonneg hs hdelta)
  refine ⟨s.tick delta, k, if_pos hdelta, ?_, ?_, tick_frac_nonneg s delta, tick_frac_lt s delta, tick_moves_only_clock s delta⟩
  · calc (s.tick delta).rtc = trunc16 (u16 s.rtc + s.wholeTicks delta) := rfl
      _ = s.rtc + BitVec.ofNat 16 k := by rw [hk, trunc16_u16_add_natCast]
  · simpa [hk] using wholeTicks_add_frac s delta

/-! ### The invariant -/

/-- Settles O45: both banks are empty, the counters 0, and the defaults of the parameters fit together. -/
theorem invariantHoldsAtPowerOn : Obligations.InvariantHoldsAtPowerOn where
  m1_wf := rfl
  m2_wf := rfl
  frac_nonneg := le_refl _
  frac_lt := by norm_num [State.reset]
  counter := Nat.two_pow_pos _
  cycles := rfl
  disjoint := by simp [State.reset, initialConfig]
  encoding := by decide

theorem inv_thenNext {s : State} (h : Inv s) : Inv s.thenNext := (h.setPc _ _).count

theorem exec_keeps_inv {i : Instr} {s t : State} (hs : Inv s) (h : exec i s = .next t) : Inv t := by
  cases exec_effect h with
  | writesAcc _ v => exact inv_thenNext (hs.setAcc v)
  | stores _ v => exact inv_thenNext (hs.writeEa _ v)
  | calls m => exact ((hs.writeEa _ _).setPc _ _).count
  | transfers _ p b => exact (hs.setPc p b).count
  | readsIo x addr => exact inv_thenNext ((hs.afterIoRead _).setAcc _)
  | writesIo x addr => exact inv_thenNext (hs.ioWrite _ _)
  | writesIx _ r v => exact inv_thenNext (hs.setIx r v)
  | halts => exact inv_thenNext hs.setHalted
  | resets => exact hs.resetTransition

/-- Settles O46: every update an instruction is made of keeps the invariant, and so does a skipped word. -/
theorem everyStepKeepsTheInvariant : Obligations.EveryStepKeepsTheInvariant := by
  intro s t hs h
  obtain ⟨-, rfl⟩ | ⟨-, i, -, hexec⟩ | ⟨-, -, rfl⟩ := step_next_cases h
  · exact hs
  · exact exec_keeps_inv hs hexec
  · exact inv_thenNext hs

theorem stepMarked_keeps_inv (s : State) (hs : Inv s) : Inv (stepMarked s) := by
  rcases stepMarked_cases s with h | h
  · exact everyStepKeepsTheInvariant s _ hs h
  · rw [h]
    exact hs.markRefused

/-- A tick brings the remainder into its range from any value (R235). -/
theorem inv_tick {s : State} (h : Inv s) (delta : ℚ) : Inv (s.tick delta) where
  m1_wf := h.m1_wf
  m2_wf := h.m2_wf
  frac_nonneg := tick_frac_nonneg s delta
  frac_lt := tick_frac_lt s delta
  counter := h.counter
  cycles := h.cycles
  disjoint := h.disjoint
  encoding := h.encoding

theorem hostAct_keeps_inv (a : HostAction) (s t : State) (hs : Inv s) (h : hostAct a s = some t) : Inv t :=
  hostAct_keeps stepMarked_keeps_inv (fun _ hs => hs.resetTransition) (fun _ delta _ hs => inv_tick hs delta)
    (fun _ bank addr v hs => hs.memWrite bank addr v) (fun _ p b hs => hs.setPc p b) hs h

theorem execution_keeps_inv {ms : List Move} {s t : State} (hs : Inv s) (h : Execution ms s t) : Inv t :=
  execution_keeps Inv hostAct_keeps_inv h hs

/-- Settles O47: every transaction keeps the invariant, so every execution does, those from power-on among them. -/
theorem everyHostActionKeepsTheInvariant : Obligations.EveryHostActionKeepsTheInvariant :=
  ⟨hostAct_keeps_inv, fun _ _ _ => execution_keeps_inv, fun _ ⟨_, h⟩ => execution_keeps_inv invariantHoldsAtPowerOn h⟩

end Sys2Proof.Proofs
end

section
/-! PROOFS. Memory (20_memory.md): what a read gives in each bank and where nothing was written (R52), what it gives after a
write (R51, R53, R62), that a canonical bank is known by its words (R50, R55), and a store where the next step fetches (R66). -/

namespace Sys2Proof.Proofs

open Sys2Proof Sys2Proof.Machine

/-! ### Reads -/

theorem readByte_eq_zero_of_unlisted {m : Memory} {k : Nat} (h : ∀ c ∈ m, c.1 ≠ k) : m.readByte k = 0#8 := by
  induction m with
  | nil => rfl
  | cons c rest ih =>
    obtain ⟨hc, hrest⟩ := List.forall_mem_cons.mp h
    exact (if_neg hc).trans (ih hrest)

/-- A word none of whose four cells is listed was never written (R52). -/
theorem readWord_eq_zero_of_unlisted {m : Memory} {a : Nat} (h : ∀ c ∈ m, c.1 < 4 * a ∨ 4 * a + 3 < c.1) : m.readWord a = 0 := by
  have hbyte (k : Nat) (hlo : 4 * a ≤ k) (hhi : k ≤ 4 * a + 3) : m.readByte k = 0#8 :=
    readByte_eq_zero_of_unlisted fun c hc => by have := h c hc; omega
  rw [Memory.readWord, hbyte (4 * a), hbyte (4 * a + 1), hbyte (4 * a + 2), hbyte (4 * a + 3)]
  · decide
  all_goals omega

theorem memRead_of_no_bank (s : State) {bank : Nat} (addr : Nat) (h1 : bank ≠ 1) (h2 : bank ≠ 2) : s.memRead bank addr = 0 := by
  unfold State.memRead
  split
  · exact absurd rfl h1
  · exact absurd rfl h2
  · rfl

/-- Settles O16: each bank is read modulo its capacity, and an unlisted cell reads 0. -/
theorem memReadByBank : Obligations.MemReadByBank :=
  ⟨fun _ _ => ⟨rfl, rfl⟩, fun s _ => memRead_of_no_bank s, fun _ _ => readWord_eq_zero_of_unlisted, State.memRead_reset, fun _ => rfl⟩

/-! ### Reads after writes -/

/-- Any address of the written cell names the word (R51). -/
theorem memRead_memWrite_same_cell (s : State) (b : Bank) {addr addr' : Nat} (v : Word)
    (h : addr % capacity b.num = addr' % capacity b.num) : (s.memWrite b.num addr v).memRead b.num addr' = v := by
  rw [State.memRead_memWrite, if_pos ⟨rfl, capacity_num_pos b, h.symm⟩]

theorem memRead_memWrite_other_cell (s : State) {bank bank' addr addr' : Nat} (v : Word)
    (h : bank' ≠ bank ∨ addr' % capacity bank ≠ addr % capacity bank) :
    (s.memWrite bank addr v).memRead bank' addr' = s.memRead bank' addr' := by
  rw [State.memRead_memWrite, if_neg]
  rintro ⟨hbank, -, haddr⟩
  exact h.elim (· hbank) (· haddr)

theorem memWrite_of_no_bank (s : State) {bank : Nat} (addr : Nat) (v : Word) (h1 : bank ≠ 1) (h2 : bank ≠ 2) :
    s.memWrite bank addr v = s := by
  unfold State.memWrite
  split
  · exact absurd rfl h1
  · exact absurd rfl h2
  · rfl

/-- Settles O17: a read of the written cell, under any of its addresses, of another cell, and a write to no bank. -/
theorem memReadAfterMemWrite : Obligations.MemReadAfterMemWrite :=
  ⟨fun s b _ _ => memRead_memWrite_same_cell s b, fun s _ _ _ _ => memRead_memWrite_other_cell s,
    fun s _ => memWrite_of_no_bank s⟩

/-! ### Canonical banks -/

/-- Every key is one of the four of its word. -/
theorem readByte_congr_of_readWord {m n : Memory} {k : Nat} (h : m.readWord (k / 4) = n.readWord (k / 4)) :
    m.readByte k = n.readByte k := by
  obtain ⟨hm0, hm1, hm2, hm3⟩ := m.bytes_of_readWord (k / 4)
  obtain ⟨hn0, hn1, hn2, hn3⟩ := n.bytes_of_readWord (k / 4)
  have hk : k = 4 * (k / 4) ∨ k = 4 * (k / 4) + 1 ∨ k = 4 * (k / 4) + 2 ∨ k = 4 * (k / 4) + 3 := by omega
  rcases hk with hk | hk | hk | hk <;> rw [hk]
  · rw [← hm0, h, hn0]
  · rw [← hm1, h, hn1]
  · rw [← hm2, h, hn2]
  · rw [← hm3, h, hn3]

/-- Settles O18: below the capacity equal words have equal bytes, and from the capacity on a canonical bank reads 0. -/
theorem equalWordsAreEqualBanks : Obligations.EqualWordsAreEqualBanks := by
  intro cap m n hm hn h
  refine Memory.eq_of_readByte hm hn fun k => ?_
  by_cases hk : k < 4 * cap
  · exact readByte_congr_of_readWord (h (k / 4) (by omega))
  · rw [Memory.readByte_above hm (by omega), Memory.readByte_above hn (by omega)]

/-! ### A store where the next step fetches -/

/-- After a NEXT the fetch is at `(PB, P + 1)` of the memory the handler left (R66, R111, R114). -/
theorem fetchWord_thenNext (s : State) : s.thenNext.fetchWord = s.memRead s.pb.num (s.p + 1).toNat := rfl

/-- Settles O27: the store is done before the fetch, which reads the stored cell, under whichever of its addresses. -/
theorem storeIsSeenByTheNextFetch : Obligations.StoreIsSeenByTheNextFetch := by
  intro m s t h hbank haddr
  obtain rfl : (s.writeEa (s.ea m) s.a).thenNext = t := Host.Outcome.next.inj ((exec_fst m s).symm.trans h)
  rw [fetchWord_thenNext, State.writeEa_pb, State.writeEa_p, State.writeEa, hbank]
  exact memRead_memWrite_same_cell s s.pb s.a haddr

end Sys2Proof.Proofs
end

section
/-! PROOFS. Encoding (30_encoding.md): the spec's opcode map (R85, R94), the bits of a word that say what it decodes to (R80 to R95),
and the bits that an encoder writes (R97, R98). -/

namespace Sys2Proof.Proofs

open Sys2Proof Sys2Proof.Machine

/-! ### The opcode map -/

theorem specEncoding_valid : specEncoding.valid = true := by decide

/-- Settles O4: the table is finite, and each operation stands in it (R85). -/
theorem handlersOfAllOpcodePairs : Obligations.HandlersOfAllOpcodePairs := by
  refine ⟨fun o => ?_, by decide, specEncoding_valid⟩
  cases o <;> decide

/-- Settles O5: each word is a literal, which the decoder evaluates. -/
theorem sampleWordsDecodeAsWritten : Obligations.SampleWordsDecodeAsWritten := by
  unfold Obligations.SampleWordsDecodeAsWritten
  decide

/-! ### The opcode bits -/

/-- Under the mask of a field a word is that field at its place (R80). -/
theorem and_putField_allOnes (w : Word) (lo n : Nat) :
    w &&& putField (BitVec.allOnes n) lo = putField (getField w lo n) lo := by
  apply BitVec.eq_of_getLsbD_eq
  intro i hi
  simp only [BitVec.getLsbD_and, getLsbD_putField, getField, BitVec.getLsbD_extractLsb', BitVec.getLsbD_allOnes]
  by_cases hlo : lo ≤ i
  · simp [hlo, hi, Bool.and_comm]
  · simp [hlo]

/-- The bits of CLASS and OP in the spec's layout (R80, R83). -/
theorem and_opcodeMask (w : Word) :
    w &&& 0x7F000000#32 =
      putField (decodeFields encLayout w).cls encLayout.classLo ||| putField (decodeFields encLayout w).op encLayout.opLo := by
  have hmask : 0x7F000000#32 = putField (BitVec.allOnes 3) 28 ||| putField (BitVec.allOnes 4) 24 := by decide
  rw [hmask, BitVec.and_or_distrib_left, and_putField_allOnes, and_putField_allOnes]
  rfl

/-- Where no pair has two rows, a word that decodes to an operation has the operation's own opcode (R85, R117). -/
theorem opcode_of_decode_instr {e : Encoding} (he : e.opcodeMap.valid = true) {w : Word} {i : Instr} (h : decode e w = .instr i) :
    ((decodeFields e.layout w).cls, (decodeFields e.layout w).op) = opcodeOf e.opcodeMap i.op :=
  (opcodeOf_of_handlerOf he (decode_instr h).1).symm

theorem wellFormed_of_decode_instr {e : Encoding} {w : Word} {i : Instr} (h : decode e w = .instr i) : i.wellFormed = true := by
  rw [(decode_instr h).2]
  exact Fields.wellFormed_toInstr _ _

/-- Two words that decode to one instruction have the same opcode bits. -/
theorem opcodeBits_eq_of_decode_instr {w v : Word} {i : Instr} (hw : decode specEncoding w = .instr i)
    (hv : decode specEncoding v = .instr i) : w &&& 0x7F000000#32 = v &&& 0x7F000000#32 := by
  have hopcode := (opcode_of_decode_instr (by decide) hw).trans (opcode_of_decode_instr (by decide) hv).symm
  obtain ⟨hcls, hop⟩ := Prod.mk.inj hopcode
  rw [and_opcodeMask, and_opcodeMask]
  exact congrArg₂ (fun c o => putField c encLayout.classLo ||| putField o encLayout.opLo) hcls hop

/-- Settles O2: the address comes from a field of 15 bits; and the instruction's encoding is another word that decodes to it. -/
theorem decodedInstructionsAreWellFormed : Obligations.DecodedInstructionsAreWellFormed :=
  ⟨fun _ _ _ => wellFormed_of_decode_instr, fun _ i h =>
    opcodeBits_eq_of_decode_instr h
      (decodeOfEncodeIsTheInstruction specEncoding i specEncoding_valid (wellFormed_of_decode_instr h))⟩

/-! ### The bits an instruction uses -/

/-- The bits of a word that an operation's handler reads, in the spec's layout, its opcode among them (R84, R87, R88, R93). -/
def usedBits : Op → Word
  | .shl | .shr | .halt | .reset => 0x7F000000#32
  | .cix => 0x7F0C0000#32
  | .ior | .iow => 0x7F037FFF#32
  | .lix => 0xFF8F7FFF#32
  | .cad | .add | .dim | .tmu | .lst | .fst | .sto | .bpx | .blm | .bze | .jsb | .bir => 0xFF037FFF#32

/-- Words that agree under a mask agree under every part of it. -/
theorem and_eq_of_submask {w v mask part : Word} (h : w &&& mask = v &&& mask) (hpart : part &&& mask = part) :
    w &&& part = v &&& part := by
  rw [← hpart, BitVec.and_comm part, ← BitVec.and_assoc, ← BitVec.and_assoc, h]

theorem opcodeMask_usedBits (o : Op) : 0x7F000000#32 &&& usedBits o = 0x7F000000#32 := by cases o <;> decide

theorem usedBits_outside_index {o : Op} (hlix : o ≠ .lix) (hcix : o ≠ .cix) : usedBits o &&& 0xFF037FFF#32 = usedBits o := by
  cases o with
  | lix => exact absurd rfl hlix
  | cix => exact absurd rfl hcix
  | _ => decide

/-- Words with the same opcode bits have the same CLASS and OP (R83). -/
theorem decodeFields_opcode_congr {w v : Word} (h : w &&& 0x7F000000#32 = v &&& 0x7F000000#32) :
    (decodeFields encLayout w).cls = (decodeFields encLayout v).cls ∧ (decodeFields encLayout w).op = (decodeFields encLayout v).op :=
  ⟨getField_congr h 28 3 (by decide), getField_congr h 24 4 (by decide)⟩

theorem decodeFields_t_congr {w v : Word} (h : w &&& 0x000C0000#32 = v &&& 0x000C0000#32) :
    (decodeFields encLayout w).t = (decodeFields encLayout v).t :=
  congrArg IxReg.ofBits (getField_congr h 18 2 (by decide))

theorem decodeFields_imm_congr {w v : Word} (h : w &&& 0x00800000#32 = v &&& 0x00800000#32) :
    (decodeFields encLayout w).imm = (decodeFields encLayout v).imm :=
  congrArg (fun b : BitVec 1 => decide (b = 1)) (getField_congr h 23 1 (by decide))

theorem decodeFields_x_addr_congr {w v : Word} (h : w &&& 0x00037FFF#32 = v &&& 0x00037FFF#32) :
    (decodeFields encLayout w).x = (decodeFields encLayout v).x ∧ (decodeFields encLayout w).addr = (decodeFields encLayout v).addr :=
  ⟨congrArg IndexSelect.ofBits (getField_congr h 16 2 (by decide)), getField_congr h 0 15 (by decide)⟩

theorem decodeFields_memRef_congr {w v : Word} (h : w &&& 0x80037FFF#32 = v &&& 0x80037FFF#32) :
    (decodeFields encLayout w).memRef = (decodeFields encLayout v).memRef := by
  have hbank : (decodeFields encLayout w).bank = (decodeFields encLayout v).bank :=
    congrArg Bank.ofBit (getField_congr h 31 1 (by decide))
  obtain ⟨hx, haddr⟩ := decodeFields_x_addr_congr (and_eq_of_submask h (by decide))
  simp only [Fields.memRef, hbank, hx, haddr]

/-- The handler of an operation reads its used bits only (R84, R87, R88, R93). -/
theorem toInstr_congr_usedBits {w v : Word} (o : Op) (h : w &&& usedBits o = v &&& usedBits o) :
    (decodeFields encLayout w).toInstr o = (decodeFields encLayout v).toInstr o := by
  have agree {part : Word} (hpart : part &&& usedBits o = part) : w &&& part = v &&& part := and_eq_of_submask h hpart
  cases o with
  | shl | shr | halt | reset => rfl
  | cix => exact congrArg Instr.cix (decodeFields_t_congr (agree (by decide)))
  | ior | iow =>
    obtain ⟨hx, haddr⟩ := decodeFields_x_addr_congr (agree (by decide))
    simp only [Fields.toInstr, hx, haddr]
  | lix =>
    simp only [Fields.toInstr, decodeFields_imm_congr (agree (by decide)), decodeFields_t_congr (agree (by decide)),
      decodeFields_memRef_congr (agree (by decide))]
  | _ => simp only [Fields.toInstr, decodeFields_memRef_congr (agree (by decide))]

theorem handlerOf_congr {w v : Word} (h : w &&& 0x7F000000#32 = v &&& 0x7F000000#32) :
    handlerOf opcodeMap (decodeFields encLayout w).cls (decodeFields encLayout w).op =
      handlerOf opcodeMap (decodeFields encLayout v).cls (decodeFields encLayout v).op := by
  obtain ⟨hcls, hop⟩ := decodeFields_opcode_congr h
  rw [hcls, hop]

/-- Every word with the used bits of a decoded one decodes to the same instruction. -/
theorem decode_instr_congr {w v : Word} {i : Instr} (hw : decode specEncoding w = .instr i)
    (h : w &&& usedBits i.op = v &&& usedBits i.op) : decode specEncoding v = .instr i := by
  obtain ⟨hhandler, hi⟩ := decode_instr hw
  have hsame := handlerOf_congr (and_eq_of_submask h (opcodeMask_usedBits i.op))
  calc decode specEncoding v = .instr ((decodeFields encLayout v).toInstr i.op) := decode_of_handlerOf rfl (hsame.symm.trans hhandler)
    _ = .instr ((decodeFields encLayout w).toInstr i.op) := by rw [toInstr_congr_usedBits i.op h]
    _ = .instr i := congrArg Decoded.instr hi.symm

theorem decode_noHandler_iff {e : Encoding} {w : Word} {cls : BitVec 3} {op : BitVec 4} :
    decode e w = .noHandler cls op ↔
      handlerOf e.opcodeMap (decodeFields e.layout w).cls (decodeFields e.layout w).op = none ∧
      (decodeFields e.layout w).cls = cls ∧ (decodeFields e.layout w).op = op := by
  simp only [decode]
  split <;> simp_all

/-- A pair with no handler is its opcode bits alone (R94). -/
theorem decode_noHandler_congr {w v : Word} {cls : BitVec 3} {op : BitVec 4} (hw : decode specEncoding w = .noHandler cls op)
    (h : w &&& 0x7F000000#32 = v &&& 0x7F000000#32) : decode specEncoding v = .noHandler cls op := by
  obtain ⟨hnone, hcls, hop⟩ := decode_noHandler_iff.mp hw
  obtain ⟨hcls', hop'⟩ := decodeFields_opcode_congr h
  exact decode_noHandler_iff.mpr ⟨(handlerOf_congr h).symm.trans hnone, hcls'.symm.trans hcls, hop'.symm.trans hop⟩

/-- Words that agree under a mask decode alike, if it covers the opcode and what the first word's operation uses. -/
theorem decode_congr {w v mask : Word} (h : w &&& mask = v &&& mask) (hopcode : 0x7F000000#32 &&& mask = 0x7F000000#32)
    (hused : ∀ i, decode specEncoding w = .instr i → usedBits i.op &&& mask = usedBits i.op) :
    decode specEncoding w = decode specEncoding v := by
  cases hw : decode specEncoding w with
  | instr i => exact (decode_instr_congr hw (and_eq_of_submask h (hused i hw))).symm
  | noHandler cls op => exact (decode_noHandler_congr hw (and_eq_of_submask h hopcode)).symm

/-- The index class is CLASS 6 (R85). -/
theorem classBits_of_index {w : Word} {i : Instr} (hw : decode specEncoding w = .instr i) (hi : i.op = .lix ∨ i.op = .cix) :
    w &&& 0x70000000#32 = 0x60000000#32 := by
  have hopcode := opcode_of_decode_instr (e := specEncoding) (by decide) hw
  have hcls : getField w 28 3 = (opcodeOf opcodeMap i.op).1 := congrArg Prod.fst hopcode
  have hmask : 0x70000000#32 = putField (BitVec.allOnes 3) 28 := by decide
  rw [hmask, and_putField_allOnes, hcls]
  rcases hi with hi | hi <;> rw [hi] <;> decide

/-- The operation of a word with given opcode bits (R83, R85). -/
theorem op_of_opcodeBits {w v : Word} {o : Op} {i : Instr} (h : w &&& 0x7F000000#32 = v)
    (ho : handlerOf opcodeMap (decodeFields encLayout v).cls (decodeFields encLayout v).op = some o)
    (hw : decode specEncoding w = .instr i) : i.op = o := by
  have hsame : w &&& 0x7F000000#32 = v &&& 0x7F000000#32 := by rw [← h, BitVec.and_assoc, BitVec.and_self]
  exact Option.some.inj (((decode_instr hw).1.symm.trans (handlerOf_congr hsame)).trans ho)

/-! ### The bits an encoder writes -/

/-- A field within a mask, or holding 0, has no bit outside the mask. -/
theorem putField_within {n : Nat} {v : BitVec n} {lo : Nat} {mask : Word}
    (h : v = 0 ∨ putField (BitVec.allOnes n) lo &&& mask = putField (BitVec.allOnes n) lo) :
    putField v lo &&& mask = putField v lo := by
  rcases h with rfl | h
  · simp [putField]
  · have hown : putField v lo &&& putField (BitVec.allOnes n) lo = putField v lo := by
      apply BitVec.eq_of_getLsbD_eq
      intro i hi
      simp only [BitVec.getLsbD_and, getLsbD_putField, BitVec.getLsbD_allOnes, hi, decide_true, Bool.true_and]
      by_cases hv : i - lo < n
      · rw [decide_eq_true hv, Bool.and_true, Bool.and_right_comm, Bool.and_self]
      · simp [BitVec.getLsbD_of_ge v (i - lo) (by omega)]
    rw [← hown, BitVec.and_assoc, h]

/-- A word of fields of which each is covered by the mask or 0 (R98), in the spec's layout. -/
theorem encodeFields_within {f : Fields} {mask : Word} (hopcode : 0x7F000000#32 &&& mask = 0x7F000000#32)
    (hbank : f.bank = .one ∨ 0x80000000#32 &&& mask = 0x80000000#32)
    (himm : f.imm = false ∨ 0x00800000#32 &&& mask = 0x00800000#32)
    (ht : f.t = .ix0 ∨ 0x000C0000#32 &&& mask = 0x000C0000#32)
    (hx : f.x = .noIndex ∨ 0x00030000#32 &&& mask = 0x00030000#32) (hs : f.s = false)
    (haddr : f.addr = 0 ∨ 0x00007FFF#32 &&& mask = 0x00007FFF#32) :
    encodeFields encLayout f &&& mask = encodeFields encLayout f := by
  have hcls : 0x70000000#32 &&& mask = 0x70000000#32 := by
    rw [show 0x70000000#32 = 0x70000000#32 &&& 0x7F000000#32 by decide, BitVec.and_assoc, hopcode]
  have hop : 0x0F000000#32 &&& mask = 0x0F000000#32 := by
    rw [show 0x0F000000#32 = 0x0F000000#32 &&& 0x7F000000#32 by decide, BitVec.and_assoc, hopcode]
  simp only [encodeFields, encLayout, BitVec.and_or_distrib_right]
  rw [putField_within (hbank.imp (congrArg Bank.bit) id), putField_within (.inr hcls), putField_within (.inr hop),
    putField_within (himm.imp (congrArg BitVec.ofBool) id), putField_within (ht.imp (congrArg IxReg.bits) id),
    putField_within (hx.imp (congrArg IndexSelect.bits) id), putField_within (.inl (congrArg BitVec.ofBool hs)),
    putField_within haddr]

/-- The encoder writes 0 outside the bits that the instruction uses (R88, R97). -/
theorem encode_within_usedBits (i : Instr) : encode specEncoding i &&& usedBits i.op = encode specEncoding i := by
  cases i with
  | shl | shr | halt | reset =>
    exact encodeFields_within (mask := 0x7F000000#32) (by decide) (.inl rfl) (.inl rfl) (.inl rfl) (.inl rfl) rfl (.inl rfl)
  | cix t =>
    exact encodeFields_within (mask := 0x7F0C0000#32) (by decide) (.inl rfl) (.inl rfl) (.inr (by decide)) (.inl rfl) rfl (.inl rfl)
  | ior x addr | iow x addr =>
    exact encodeFields_within (mask := 0x7F037FFF#32) (by decide) (.inl rfl) (.inl rfl) (.inl rfl) (.inr (by decide)) rfl
      (.inr (by decide))
  | lix imm t m =>
    exact encodeFields_within (mask := 0xFF8F7FFF#32) (by decide) (.inr (by decide)) (.inr (by decide)) (.inr (by decide))
      (.inr (by decide)) rfl (.inr (by decide))
  | _ =>
    exact encodeFields_within (mask := 0xFF037FFF#32) (by decide) (.inr (by decide)) (.inl rfl) (.inl rfl) (.inr (by decide)) rfl
      (.inr (by decide))

/-- A mask of bits that the instruction does not use finds 0 in its encoding. -/
theorem encode_and_eq_zero {i : Instr} {mask : Word} (h : usedBits i.op &&& mask = 0) : encode specEncoding i &&& mask = 0 := by
  rw [← encode_within_usedBits, BitVec.and_assoc, h]
  exact BitVec.and_zero

/-- Settles O3: a word decodes by the bits its operation uses, and the encoder writes no others; each clause's mask covers those
bits, or has none of them. -/
theorem ignoredBitsDoNotChangeTheInstruction : Obligations.IgnoredBitsDoNotChangeTheInstruction := by
  refine ⟨fun w v h => ?_, fun w v hclass h => ?_, fun p hp w h => ?_, fun w v cls op => decode_noHandler_congr,
    fun w v hcix h => ?_, fun w v hio h => ?_, fun i => ?_, fun i hlix hcix => ?_, fun i hi => ?_, fun i hi => ?_, fun r => ?_⟩
  · exact decode_congr h (by decide) fun i _ => by cases i.op <;> decide
  · refine decode_congr h (by decide) fun i hi => usedBits_outside_index (fun hlix => ?_) (fun hcix => ?_)
    · exact hclass (classBits_of_index hi (.inl hlix))
    · exact hclass (classBits_of_index hi (.inr hcix))
  · have hused : decode specEncoding p.1 = .instr p.2 ∧ usedBits p.2.op = 0x7F000000#32 := by
      clear h
      revert p
      decide
    obtain ⟨hp, hbits⟩ := hused
    refine decode_instr_congr hp ?_
    rw [hbits, ← h, BitVec.and_assoc, BitVec.and_self]
  · refine decode_congr h (by decide) fun i hi => ?_
    rw [op_of_opcodeBits hcix (o := .cix) (by decide) hi]
    decide
  · refine decode_congr h (by decide) fun i hi => ?_
    rcases hio with hior | hiow
    · rw [op_of_opcodeBits hior (o := .ior) (by decide) hi]
      decide
    · rw [op_of_opcodeBits hiow (o := .iow) (by decide) hi]
      decide
  · exact encode_and_eq_zero (by cases i.op <;> decide)
  · refine encode_and_eq_zero ?_
    rw [← usedBits_outside_index hlix hcix, BitVec.and_assoc, show 0xFF037FFF#32 &&& 0x00FC8000#32 = 0#32 by decide]
    exact BitVec.and_zero
  · refine encode_and_eq_zero ?_
    rcases hi with hi | hi <;> rw [hi] <;> decide
  · revert i
    decide
  · exact encode_and_eq_zero (show usedBits .cix &&& 0x80F3FFFF#32 = 0 by decide)

end Sys2Proof.Proofs
end

section
/-! PROOFS. The effective address (30_encoding.md R90), the sweep of empty memory (R94, R285), and the assembler (R97 to R101). -/

namespace Sys2Proof.Proofs

open Sys2Proof Sys2Proof.Machine

/-! ### The effective address -/

/-- The 16-bit sum is the sum with the signed reading of the offset, modulo 65536 (R90). -/
theorem toNat_add_toInt (addr offset : Half) : ((addr + offset).toNat : Int) = (addr.toNat + offset.toInt) % 65536 := by
  have hsum : (addr + offset).toNat = (addr.toNat + offset.toNat) % 65536 := BitVec.toNat_add addr offset
  have hoffset : offset.toInt = offset.toNat ∨ offset.toInt = offset.toNat - 65536 := by
    rw [BitVec.toInt_eq_toNat_cond]
    split
    · exact .inl rfl
    · exact .inr rfl
  omega

/-- Settles O19: without an index the address is the field's, and with one it is the adder's sum. -/
theorem effectiveAddressWrapsAndKeepsTheBank : Obligations.EffectiveAddressWrapsAndKeepsTheBank := by
  rintro s ⟨bank, x, addr⟩
  refine ⟨rfl, ?_⟩
  cases x with
  | noIndex => rfl
  | ix0 => exact toNat_add_toInt addr s.ix0
  | ix1 => exact toNat_add_toInt addr s.ix1
  | ix2 => exact toNat_add_toInt addr s.ix2

/-! ### Empty memory -/

/-- A state that will skip whatever it fetches in its bank: every word there reads 0, which has no handler (R94, R285). -/
structure Sweeping (s : State) : Prop where
  ready : Ready s
  zero_noHandler : ∃ cls op, decode s.cfg.encoding 0 = .noHandler cls op
  reads_zero : ∀ addr, s.memRead s.pb.num addr = 0

theorem Sweeping.thenNext {s : State} (h : Sweeping s) : Sweeping s.thenNext where
  ready := h.ready
  zero_noHandler := h.zero_noHandler
  reads_zero := h.reads_zero

theorem Sweeping.stepMarked_eq {s : State} (h : Sweeping s) : stepMarked s = s.thenNext := by
  obtain ⟨cls, op, hzero⟩ := h.zero_noHandler
  exact stepMarked_of_next (step_of_noHandler h.ready (show decode s.cfg.encoding s.fetchWord = .noHandler cls op by
    rw [State.fetchWord, h.reads_zero, hzero]))

theorem Sweeping.not_stopped {s : State} (h : Sweeping s) : s.stopped = false := by
  simp [State.stopped, h.ready.1, h.ready.2]

theorem runFor_succ_of_not_stopped {s : State} (n : Nat) (h : s.stopped = false) :
    runFor (n + 1) s = ((runFor n (stepMarked s)).1, (runFor n (stepMarked s)).2 + 1) := by
  simp [runFor, h]

/-- A sweep takes every step of its bound, one word a step (R285). -/
theorem Sweeping.runFor_eq {s : State} (n : Nat) (h : Sweeping s) :
    (runFor n s).2 = n ∧ (runFor n s).1.p = s.p + BitVec.ofNat 16 n ∧ (runFor n s).1.pb = s.pb ∧ (runFor n s).1.stopped = false := by
  induction n generalizing s with
  | zero => exact ⟨rfl, (BitVec.add_zero s.p).symm, rfl, h.not_stopped⟩
  | succ n ih =>
    obtain ⟨hsteps, hp, hpb, hstopped⟩ := ih h.thenNext
    rw [runFor_succ_of_not_stopped n h.not_stopped, h.stepMarked_eq]
    refine ⟨congrArg (· + 1) hsteps, ?_, hpb, hstopped⟩
    calc (runFor n s.thenNext).1.p = s.p + 1#16 + BitVec.ofNat 16 n := hp
      _ = s.p + BitVec.ofNat 16 (n + 1) := by rw [BitVec.add_assoc, Nat.add_comm n, BitVec.ofNat_add]

/-- Settles O58: every state of the run skips the zero word, and the state after it is such a state again. -/
theorem emptyMemoryIsSweptWithoutEnd : Obligations.EmptyMemoryIsSweptWithoutEnd :=
  ⟨⟨0, 0, by decide⟩, fun _ n hready hzero hreads => Sweeping.runFor_eq n ⟨hready, hzero, hreads⟩⟩

/-! ### The assembler: what it answers -/

theorem asmOperand_address (e : Encoding) (lit : Nat) (reads : Bool) (bank addr : Nat) (k : Option Nat) (f : MemRef → Fields) :
    asmOperand e lit reads (.address bank addr k) f = asmAt e bank addr k f := rfl

theorem asmOperand_literal (e : Encoding) (lit : Nat) (n : Int) (f : MemRef → Fields) :
    asmOperand e lit true (.literal n) f = asmLiteral e lit n f := rfl

/-- An operation that takes an address operand takes any in range (R97). -/
theorem asmOnAddress_address {o : Op} (ho : o ∉ [Op.shl, .shr, .lix, .cix, .halt, .reset]) (e : Encoding) (lit bank addr : Nat)
    (k : Option Nat) : asmOnAddress e lit (.address bank addr k) o = asmAt e bank addr k (o.fieldsAt e.opcodeMap) := by
  cases o with
  | shl | shr | lix | cix | halt | reset => exact absurd (by decide) ho
  | _ => rfl

theorem asmOnAddress_wrongForm {o : Op} (ho : o ∈ [Op.shl, .shr, .lix, .cix, .halt, .reset]) (e : Encoding) (lit : Nat) (arg : AsmArg) :
    asmOnAddress e lit arg o = .refused .wrongForm := by
  revert o
  simp [asmOnAddress]

/-- A literal is legal where an operand is read (R101). -/
theorem asmOnAddress_literal {o : Op} (ho : o ∈ [Op.cad, .add, .dim, .tmu]) (e : Encoding) (lit : Nat) (n : Int) :
    asmOnAddress e lit (.literal n) o = asmLiteral e lit n (o.fieldsAt e.opcodeMap) := by
  revert o
  simp [asmOnAddress, asmOperand]

/-- Elsewhere a literal is refused, as wrong or as not legal there (R101). -/
theorem asmOnAddress_literal_refused {o : Op} (ho : o ∉ [Op.cad, .add, .dim, .tmu]) (e : Encoding) (lit : Nat) (n : Int) :
    (asmOnAddress e lit (.literal n) o).isRefused := by
  cases o with
  | cad | add | dim | tmu => exact absurd (by decide) ho
  | _ => exact ⟨_, rfl⟩

theorem asmBare_wrongForm {o : Op} (ho : o ∉ [Op.shl, .shr, .halt, .reset]) (e : Encoding) : asmBare e o = .refused .wrongForm := by
  cases o with
  | shl | shr | halt | reset => exact absurd (by decide) ho
  | _ => rfl

/-- A `T` outside 0..3 names no index register (R97). -/
theorem asmTarget_of_bad {t : Nat} (h : 3 < t) : asmTarget t = none := by
  obtain ⟨n, rfl⟩ : ∃ n, t = n + 4 := ⟨t - 4, by omega⟩
  rfl

theorem assemble_lixMemory {t : Nat} {r : IxReg} (ht : asmTarget t = some r) (e : Encoding) (lit : Nat) (arg : AsmArg) :
    assemble e lit (.lixMemory t arg) = asmOperand e lit true arg (fun m => (Instr.lix false r m).fields e.opcodeMap) := by
  simp only [assemble, ht]

theorem assemble_lixImmediate {t : Nat} {r : IxReg} (ht : asmTarget t = some r) (e : Encoding) (lit bank addr : Nat) (k : Option Nat) :
    assemble e lit (.lixImmediate t bank addr k) = asmAt e bank addr k (fun m => (Instr.lix true r m).fields e.opcodeMap) := by
  simp only [assemble, ht]

theorem assemble_cix {t : Nat} {r : IxReg} (ht : asmTarget t = some r) (e : Encoding) (lit : Nat) :
    assemble e lit (.cix t) = .word (encode e (.cix r)) := by
  simp only [assemble, ht]

/-! A statement with a target is refused where the target is, and where its operand is. -/

theorem lixMemory_refused {e : Encoding} {lit t : Nat} {arg : AsmArg}
    (h : ∀ r, asmTarget t = some r → (asmOperand e lit true arg (fun m => (Instr.lix false r m).fields e.opcodeMap)).isRefused) :
    (assemble e lit (.lixMemory t arg)).isRefused := by
  cases ht : asmTarget t with
  | none => exact ⟨.targetOutOfRange, by simp only [assemble, ht]⟩
  | some r =>
    rw [assemble_lixMemory ht]
    exact h r ht

theorem lixImmediate_refused {e : Encoding} {lit t bank addr : Nat} {k : Option Nat}
    (h : ∀ r, asmTarget t = some r → (asmAt e bank addr k (fun m => (Instr.lix true r m).fields e.opcodeMap)).isRefused) :
    (assemble e lit (.lixImmediate t bank addr k)).isRefused := by
  cases ht : asmTarget t with
  | none => exact ⟨.targetOutOfRange, by simp only [assemble, ht]⟩
  | some r =>
    rw [assemble_lixImmediate ht]
    exact h r ht

/-- An operand out of range is refused after every operation (R97). -/
theorem onAddress_refused {e : Encoding} {lit : Nat} {arg : AsmArg}
    (h : ∀ reads f, (asmOperand e lit reads arg f).isRefused) (o : Op) : (assemble e lit (.onAddress o arg)).isRefused := by
  cases o with
  | shl | shr | lix | cix | halt | reset => exact ⟨.wrongForm, rfl⟩
  | _ => exact h _ _

/-! ### The assembler: statements in range -/

/-- The word of any fields decodes to the operation whose opcode they hold. -/
theorem decode_encodeFields {e : Encoding} (he : e.valid = true) {f : Fields} {o : Op}
    (ho : (f.cls, f.op) = opcodeOf e.opcodeMap o) : decode e (encodeFields e.layout f) = .instr (f.toInstr o) := by
  obtain ⟨hlayout, hmap⟩ : e.layout.valid = true ∧ e.opcodeMap.valid = true := by simpa [Encoding.valid] using he
  have hhandler : handlerOf e.opcodeMap f.cls f.op = some o := by
    have h := handlerOf_opcodeOf hmap o
    rwa [← ho] at h
  exact decode_of_handlerOf (decodeFields_encodeFields hlayout f) hhandler

/-- The operations on memory and the branches, each with its instruction (R93). -/
def memoryForms : List (Op × (MemRef → Instr)) :=
  [(.cad, .cad), (.add, .add), (.dim, .dim), (.tmu, .tmu), (.lst, .lst), (.fst, .fst), (.sto, .sto), (.bpx, .bpx), (.blm, .blm),
    (.bze, .bze), (.jsb, .jsb), (.bir, .bir)]

/-- Those of them that read an operand (R93, R101). -/
def readingForms : List (Op × (MemRef → Instr)) := [(.cad, .cad), (.add, .add), (.dim, .dim), (.tmu, .tmu)]

/-- The operations on the I/O port, each with its instruction (R200, R202). -/
def ioForms : List (Op × (IndexSelect → Half → Instr)) := [(.ior, .ior), (.iow, .iow)]

/-- The statements' index operands, each with what it selects (R97). -/
def indexForms : List (Option Nat × IndexSelect) := [(none, .noIndex), (some 1, .ix0), (some 2, .ix1), (some 3, .ix2)]

/-- The statements' targets, each with its register (R97). -/
def targetForms : List (Nat × IxReg) := [(0, .ix0), (1, .ix1), (2, .ix2), (3, .ix3)]

theorem asmIndex_indexForms : ∀ q ∈ indexForms, asmIndex q.1 = some q.2 := by decide

theorem asmTarget_targetForms : ∀ t ∈ targetForms, asmTarget t.1 = some t.2 := by decide

theorem memoryForms_takeAddress : ∀ p ∈ memoryForms, p.1 ∉ [Op.shl, .shr, .lix, .cix, .halt, .reset] := by
  simp [memoryForms]

theorem fields_memoryForms : ∀ p ∈ memoryForms, ∀ map m, (p.2 m).fields map = p.1.fieldsAt map m := by
  simp [memoryForms, Instr.fields]

theorem wellFormed_memoryForms : ∀ p ∈ memoryForms, ∀ m, (p.2 m).wellFormed = addrFits m.addr := by
  simp [memoryForms, Instr.wellFormed]

theorem readingForms_subset : readingForms ⊆ memoryForms := List.subset_append_left readingForms _

theorem readingForms_read : ∀ p ∈ readingForms, p.1 ∈ [Op.cad, .add, .dim, .tmu] := by
  simp [readingForms]

theorem ioForms_takeAddress : ∀ p ∈ ioForms, p.1 ∉ [Op.shl, .shr, .lix, .cix, .halt, .reset] := by
  simp [ioForms]

/-- The encoder writes B as 0 in an I/O instruction (R200, D19). -/
theorem fields_ioForms : ∀ p ∈ ioForms, ∀ map x addr, (p.2 x addr).fields map = p.1.fieldsAt map ⟨.one, x, addr⟩ := by
  simp [ioForms, Instr.fields]

/-- The handler of an I/O instruction reads X and ADDR only (R200, D19). -/
theorem toInstr_ioForms : ∀ p ∈ ioForms, ∀ f : Fields, f.toInstr p.1 = p.2 f.x (f.addr.setWidth 16) := by
  simp [ioForms, Fields.toInstr]

/-- A place in range is an address that fits (R100). -/
theorem addrFits_of_le {lit : Nat} (h : lit ≤ 32767) : addrFits (BitVec.ofNat 16 lit) = true := by
  simp only [addrFits, BitVec.toNat_ofNat, decide_eq_true_eq]
  omega

section
variable {e : Encoding} (he : e.valid = true) (lit : Nat) (b : Bank) {addr : Half} (haddr : addrFits addr = true) {k : Option Nat}
  {x : IndexSelect} (hk : asmIndex k = some x) {t : Nat} {r : IxReg}
include he

/-- The encoder's word of a well-formed instruction is the word of that instruction (R98). -/
theorem runsAs_of_eq_word {a : Assembled} {i : Instr} (hi : i.wellFormed = true) (ha : a = .word (encode e i)) : a.runsAs e i :=
  ⟨ha, decodeOfEncodeIsTheInstruction e i he hi⟩

include haddr hk

theorem assemble_memory_runsAs {p : Op × (MemRef → Instr)} (hp : p ∈ memoryForms) :
    (assemble e lit (.onAddress p.1 (.address b.num addr.toNat k))).runsAs e (p.2 ⟨b, x, addr⟩) := by
  refine runsAs_of_eq_word he ((wellFormed_memoryForms p hp _).trans haddr) ?_
  rw [assemble, asmOnAddress_address (memoryForms_takeAddress p hp), asmAt_of_range e b haddr hk, encode, fields_memoryForms p hp]

theorem assemble_lixMemory_runsAs (ht : asmTarget t = some r) :
    (assemble e lit (.lixMemory t (.address b.num addr.toNat k))).runsAs e (.lix false r ⟨b, x, addr⟩) := by
  refine runsAs_of_eq_word he haddr ?_
  rw [assemble_lixMemory ht, asmOperand_address, asmAt_of_range e b haddr hk, encode]

theorem assemble_lixImmediate_runsAs (ht : asmTarget t = some r) :
    (assemble e lit (.lixImmediate t b.num addr.toNat k)).runsAs e (.lix true r ⟨b, x, addr⟩) := by
  refine runsAs_of_eq_word he haddr ?_
  rw [assemble_lixImmediate ht, asmAt_of_range e b haddr hk, encode]

/-- An I/O statement's bank is bit B of its word, which the handler does not read (R200, D19). -/
theorem assemble_io {p : Op × (IndexSelect → Half → Instr)} (hp : p ∈ ioForms) :
    ∃ w, w = encode e (p.2 x addr) ||| putField b.bit e.layout.bLo ∧
      assemble e lit (.onAddress p.1 (.address b.num addr.toNat k)) = .word w ∧ decode e w = .instr (p.2 x addr) := by
  refine ⟨encodeFields e.layout (p.1.fieldsAt e.opcodeMap ⟨b, x, addr⟩), ?_, ?_, ?_⟩
  · rw [encode, fields_ioForms p hp]
    exact encodeFields_bank e.layout (p.1.fieldsAt e.opcodeMap ⟨.one, x, addr⟩) b rfl
  · rw [assemble, asmOnAddress_address (ioForms_takeAddress p hp), asmAt_of_range e b haddr hk]
  · rw [decode_encodeFields he (o := p.1) rfl, toInstr_ioForms p hp]
    exact congrArg (fun a => Decoded.instr (p.2 x a)) (setWidth_addr haddr)

omit haddr hk

/-- A literal's statement is the statement on its place, which is in bank 1 and not indexed (R100). -/
theorem assemble_memory_literal {p : Op × (MemRef → Instr)} (hp : p ∈ readingForms) {lit : Nat} (hlit : lit ≤ 32767) (n : Int) :
    ∃ w, w = encode e (p.2 ⟨.one, .noIndex, BitVec.ofNat 16 lit⟩) ∧
      assemble e lit (.onAddress p.1 (.literal n)) = .withLiteral w ((0 : Half) ++ BitVec.ofInt 16 n) ∧
      decode e w = .instr (p.2 ⟨.one, .noIndex, BitVec.ofNat 16 lit⟩) := by
  have hp' := readingForms_subset hp
  refine ⟨_, rfl, ?_, decodeOfEncodeIsTheInstruction e _ he ((wellFormed_memoryForms p hp' _).trans (addrFits_of_le hlit))⟩
  rw [assemble, asmOnAddress_literal (readingForms_read p hp), asmLiteral_of_range e hlit, encode, fields_memoryForms p hp']

theorem assemble_lixMemory_literal (ht : asmTarget t = some r) {lit : Nat} (hlit : lit ≤ 32767) (n : Int) :
    ∃ w, w = encode e (.lix false r ⟨.one, .noIndex, BitVec.ofNat 16 lit⟩) ∧
      assemble e lit (.lixMemory t (.literal n)) = .withLiteral w ((0 : Half) ++ BitVec.ofInt 16 n) ∧
      decode e w = .instr (.lix false r ⟨.one, .noIndex, BitVec.ofNat 16 lit⟩) := by
  refine ⟨_, rfl, ?_, decodeOfEncodeIsTheInstruction e _ he (addrFits_of_le hlit)⟩
  rw [assemble_lixMemory ht, asmOperand_literal, asmLiteral_of_range e hlit, encode]

end

/-! ### The assembler's statement -/

/-! An operand out of range, and a literal whose place is, are refused wherever an operand stands (R97, R100). -/

theorem address_refused (e : Encoding) (lit : Nat) {bank addr : Nat} {k : Option Nat}
    (h : 32767 < addr ∨ (bank ≠ 1 ∧ bank ≠ 2) ∨ ∃ n, k = some n ∧ (n = 0 ∨ 3 < n)) (reads : Bool) (f : MemRef → Fields) :
    (asmOperand e lit reads (.address bank addr k) f).isRefused := by
  rw [asmOperand_address]
  exact asmAt_refused e bank addr k f h

theorem literal_refused (e : Encoding) {lit : Nat} (h : 32767 < lit) (reads : Bool) (n : Int) (f : MemRef → Fields) :
    (asmOperand e lit reads (.literal n) f).isRefused := by
  cases reads with
  | true => exact asmLiteral_refused e h n f
  | false => exact ⟨.literalNotLegal, rfl⟩

/-- Settles O60: the clauses on statements in range, by the form of the statement, then those on refusals, by what is out of range,
then the words placed as they stand. -/
theorem assemblerEncodesOrRefuses : Obligations.AssemblerEncodesOrRefuses := by
  refine ⟨fun e lit he => ⟨fun b addr haddr q hq => ?_, ?_, ?_, fun n hlit => ?_⟩,
    fun e lit => ⟨?_, fun n hlit => ?_, fun bank addr k hbad => ?_, fun t ht => ?_, ?_, ?_, ?_, ?_, rfl⟩, ⟨0, 0, by decide⟩⟩
  · have hk : asmIndex q.1 = some q.2 := asmIndex_indexForms q hq
    refine ⟨fun p hp => assemble_memory_runsAs he lit b haddr hk hp, fun p hp => assemble_io he lit b haddr hk hp, fun t ht => ?_⟩
    have htarget : asmTarget t.1 = some t.2 := asmTarget_targetForms t ht
    exact ⟨assemble_lixMemory_runsAs he lit b haddr hk htarget, assemble_lixImmediate_runsAs he lit b haddr hk htarget⟩
  · simp only [List.forall_mem_cons]
    exact ⟨runsAs_of_eq_word he rfl rfl, runsAs_of_eq_word he rfl rfl, runsAs_of_eq_word he rfl rfl, runsAs_of_eq_word he rfl rfl,
      List.forall_mem_nil _⟩
  · exact fun t ht => runsAs_of_eq_word he rfl (assemble_cix (asmTarget_targetForms t ht) e lit)
  · exact ⟨fun p hp => assemble_memory_literal he hp hlit n,
      fun t ht => assemble_lixMemory_literal he (asmTarget_targetForms t ht) hlit n⟩
  · exact fun n o ho => asmOnAddress_literal_refused ho e lit n
  · exact ⟨onAddress_refused fun reads => literal_refused e hlit reads n,
      fun t => lixMemory_refused fun _ _ => literal_refused e hlit true n _⟩
  · have hrefused := address_refused e lit hbad
    exact ⟨onAddress_refused hrefused, fun t => lixMemory_refused fun _ _ => hrefused true _,
      fun t => lixImmediate_refused fun _ _ => asmAt_refused e bank addr k _ hbad⟩
  · have hnone (r : IxReg) : asmTarget t ≠ some r := by simp [asmTarget_of_bad ht]
    exact ⟨fun arg => lixMemory_refused fun r hr => absurd hr (hnone r),
      fun bank addr k => lixImmediate_refused fun r hr => absurd hr (hnone r),
      ⟨.targetOutOfRange, by simp only [assemble, asmTarget_of_bad ht]⟩⟩
  · exact fun o ho arg => asmOnAddress_wrongForm ho e lit arg
  · exact fun o ho => asmBare_wrongForm ho e
  · exact fun _ _ => rfl
  · exact fun _ => rfl

end Sys2Proof.Proofs
end

section
/-! PROOFS. The execution engine (40_execution_engine.md): which step runs, skips or is refused (R110 to R116, R127, R128), what
BLM, BZE, LIX and HALT do and leave (R180 to R184, R210, R220), the clock beside the steps (R121, R237), and the host's run, reset,
writes and settings (R119 to R126). -/

namespace Sys2Proof.Proofs

open Sys2Proof Sys2Proof.Machine

/-! ### The step -/

/-- Settles O6: the engine runs what it decodes at `(PB, P)`. -/
theorem stepRunsTheFetchedInstruction : Obligations.StepRunsTheFetchedInstruction := fun _ _ => step_of_instr

/-- Settles O7: the engine idles in the Halted state, and Reset clears the registers and the flag. -/
theorem haltedStepIsANoOp : Obligations.HaltedStepIsANoOp :=
  ⟨fun _ hhalted hrefused => step_of_halted hrefused hhalted,
    fun _ => ⟨rfl, rfl, ⟨rfl, rfl⟩, fun r => by cases r <;> rfl, rfl⟩⟩

/-- Settles O8: a skipped word is followed by NEXT alone, which moves P and the counters. -/
theorem wordWithNoHandlerOnlyAdvances : Obligations.WordWithNoHandlerOnlyAdvances := fun _ _ _ => step_of_noHandler

/-! ### Refusals -/

/-- The one situation without a defined result: BIR of a word whose right half names no bank (R127, R190). -/
def ReturnsToNoBank (i : Instr) (s : State) : Prop :=
  ∃ m, i = .bir m ∧ rightHalf (s.operand m) ≠ 1 ∧ rightHalf (s.operand m) ≠ 2

/-- Every instruction completes, but a BIR to no bank. -/
theorem exec_next_or_returnsToNoBank (i : Instr) (s : State) : (∃ t, exec i s = .next t) ∨ ReturnsToNoBank i s := by
  cases i with
  | bir m =>
    by_cases h1 : rightHalf (s.operand m) = 1
    · exact .inl ⟨_, exec_bir_one m s h1⟩
    · by_cases h2 : rightHalf (s.operand m) = 2
      · exact .inl ⟨_, exec_bir_two m s h2⟩
      · exact .inr ⟨m, rfl, h1, h2⟩
  | blm m =>
    cases hc : s.accNegative with
    | true => exact .inl ⟨_, exec_blm_taken m s hc⟩
    | false => exact .inl ⟨_, exec_blm_not_taken m s hc⟩
  | bze m =>
    cases hc : s.accZero with
    | true => exact .inl ⟨_, exec_bze_taken m s hc⟩
    | false => exact .inl ⟨_, exec_bze_not_taken m s hc⟩
  | _ => exact .inl ⟨_, rfl⟩

theorem exec_refused_of_returnsToNoBank {i : Instr} {s : State} (h : ReturnsToNoBank i s) : exec i s = .refused .birBadBank := by
  obtain ⟨m, rfl, h1, h2⟩ := h
  exact exec_bir_bad m s h1 h2

theorem exec_refused_iff (i : Instr) (s : State) (r : Refusal) :
    exec i s = .refused r ↔ r = .birBadBank ∧ ReturnsToNoBank i s := by
  constructor
  · intro h
    obtain ⟨t, ht⟩ | hbad := exec_next_or_returnsToNoBank i s
    · cases ht.symm.trans h
    · cases (exec_refused_of_returnsToNoBank hbad).symm.trans h
      exact ⟨rfl, hbad⟩
  · rintro ⟨rfl, hbad⟩
    exact exec_refused_of_returnsToNoBank hbad

/-- A refused step is one from a marked state, or runs a refused instruction (R127, R128). -/
theorem step_refused_cases {s : State} {r : Refusal} (h : step s = .refused r) :
    (s.refused = true ∧ r = .afterRefusal) ∨
    (Ready s ∧ ∃ i, decode s.cfg.encoding s.fetchWord = .instr i ∧ exec i s = .refused r) := by
  cases hrefused : s.refused with
  | true =>
    cases (step_of_refused hrefused).symm.trans h
    exact .inl ⟨rfl, rfl⟩
  | false =>
    cases hhalted : s.halted with
    | true => cases (step_of_halted hrefused hhalted).symm.trans h
    | false =>
      have hready : Ready s := ⟨hhalted, hrefused⟩
      cases hdecode : decode s.cfg.encoding s.fetchWord with
      | instr i => exact .inr ⟨hready, i, rfl, (step_of_instr hready hdecode).symm.trans h⟩
      | noHandler cls op => cases (step_of_noHandler hready hdecode).symm.trans h

theorem step_refused_iff (s : State) (r : Refusal) :
    step s = .refused r ↔
      (s.refused = true ∧ r = .afterRefusal) ∨
      (Ready s ∧ r = .birBadBank ∧ ∃ m, decode s.cfg.encoding s.fetchWord = .instr (.bir m) ∧
        rightHalf (s.operand m) ≠ 1 ∧ rightHalf (s.operand m) ≠ 2) := by
  constructor
  · intro h
    refine (step_refused_cases h).imp id ?_
    rintro ⟨hready, i, hdecode, hexec⟩
    obtain ⟨hr, m, rfl, hm⟩ := (exec_refused_iff i s r).mp hexec
    exact ⟨hready, hr, m, hdecode, hm⟩
  · rintro (⟨hrefused, rfl⟩ | ⟨hready, rfl, m, hdecode, h1, h2⟩)
    · exact step_of_refused hrefused
    · exact (step_of_instr hready hdecode).trans (exec_bir_bad m s h1 h2)

/-- Settles O10: every instruction completes but a BIR to no bank, and an unmarked state's step runs an instruction or completes. -/
theorem onlyABadReturnWordIsRefused : Obligations.OnlyABadReturnWordIsRefused :=
  ⟨fun _ f => (nomatch f), exec_refused_iff, step_refused_iff⟩

/-! ### Branches -/

/-- What a step that only sets P and PB and counts leaves as it was (R114, R180). -/
theorem setPc_count_frame (s : State) (p : Half) (b : Bank) :
    Counted s (s.setPc p b).count ∧ (s.setPc p b).count.a = s.a ∧ SameIndex s (s.setPc p b).count none ∧
    SameMemory s (s.setPc p b).count ∧ SameClock s (s.setPc p b).count ∧ SameDevice s (s.setPc p b).count ∧
    SameMode s (s.setPc p b).count :=
  ⟨⟨rfl, rfl⟩, rfl, fun r _ => by simp, ⟨rfl, rfl⟩, ⟨rfl, rfl⟩, ⟨rfl, rfl⟩, ⟨rfl, rfl, rfl⟩⟩

/-- The sign of the left half is bit 31 of the word (R182, D15). -/
theorem accNegative_eq_msb (s : State) : s.accNegative = s.a.msb := by
  rw [State.accNegative, s16, ← BitVec.msb_eq_toInt, leftHalf, BitVec.msb_extractLsb']
  rfl

theorem accZero_iff_halves (s : State) : s.accZero = true ↔ leftHalf s.a = 0 ∧ rightHalf s.a = 0 := by
  rw [State.accZero, decide_eq_true_iff]
  constructor
  · intro h
    rw [h]
    exact ⟨rfl, rfl⟩
  · rintro ⟨hl, hr⟩
    exact word_ext hl hr

/-- Settles O31: BLM's condition is the sign bit, and each outcome only moves P, PB and the counters. -/
theorem blmBranchesOnTheSignBit : Obligations.BlmBranchesOnTheSignBit := by
  intro m s
  rw [← accNegative_eq_msb]
  cases hc : s.accNegative with
  | true => exact ⟨_, exec_blm_taken m s hc, ⟨rfl, rfl⟩, setPc_count_frame s _ _⟩
  | false => exact ⟨_, exec_blm_not_taken m s hc, ⟨rfl, rfl⟩, setPc_count_frame s _ _⟩

/-- Settles O32: BZE's condition is that both halves are zero, and each outcome only moves P, PB and the counters. -/
theorem bzeBranchesOnZero : Obligations.BzeBranchesOnZero := by
  intro m s
  simp only [← accZero_iff_halves]
  cases hc : s.accZero with
  | true => exact ⟨_, exec_bze_taken m s hc, ⟨rfl, rfl⟩, setPc_count_frame s _ _⟩
  | false => exact ⟨_, exec_bze_not_taken m s hc, ⟨rfl, rfl⟩, setPc_count_frame s _ _⟩

/-! ### Index registers, HALT and Reset -/

/-- An instruction that only writes an index register sets it, and leaves all else but P and the counters (R113, R114). -/
theorem setIx_thenNext_frame (s : State) (r : IxReg) (v : Half) :
    (s.setIx r v).thenNext.getIx r = v ∧ SameIndex s (s.setIx r v).thenNext (some r) ∧ (s.setIx r v).thenNext.a = s.a ∧
    Advanced s (s.setIx r v).thenNext ∧ Counted s (s.setIx r v).thenNext ∧ SameMemory s (s.setIx r v).thenNext ∧
    SameClock s (s.setIx r v).thenNext ∧ SameDevice s (s.setIx r v).thenNext ∧ SameMode s (s.setIx r v).thenNext := by
  refine ⟨by simp, fun q hq => ?_, ?_⟩
  · have hqr : q ≠ r := fun h => hq (congrArg some h)
    simp [hqr]
  · simp [Advanced, Counted, SameMemory, SameClock, SameDevice, SameMode]

/-- Settles O38: both forms write the target and nothing else. -/
theorem lixLoadsTheTarget : Obligations.LixLoadsTheTarget := by
  intro imm r m s
  cases imm with
  | true => exact ⟨_, exec_lix_immediate r m s, setIx_thenNext_frame s r _⟩
  | false => exact ⟨_, exec_lix_memory r m s, setIx_thenNext_frame s r _⟩

/-- Settles O41: HALT ends with NEXT after it set the flag. -/
theorem haltSetsTheFlag : Obligations.HaltSetsTheFlag := fun s =>
  ⟨_, exec_halt s, rfl, ⟨rfl, rfl⟩, ⟨rfl, rfl⟩, rfl, fun r _ => by simp, ⟨rfl, rfl⟩, ⟨rfl, rfl⟩, ⟨rfl, rfl⟩, rfl, rfl⟩

/-- Settles O43: what the transition writes does not depend on the state it replaces. -/
theorem resetIsIdempotent : Obligations.ResetIsIdempotent := fun s => ⟨rfl, exec_reset s, rfl⟩

/-! ### The clock beside the steps -/

/-- Only RESET moves the clock, and it clears it (R237, R270). -/
theorem exec_sameClock_or_resets {i : Instr} {s t : State} (h : exec i s = .next t) :
    SameClock s t ∨ (i = .reset ∧ t.rtc = 0 ∧ t.frac = 0) := by
  cases exec_effect h with
  | resets => exact .inr ⟨rfl, rfl, rfl⟩
  | _ => exact .inl (by simp [SameClock])

theorem step_sameClock_or_resets {s t : State} (h : step s = .next t) :
    SameClock s t ∨ (decode s.cfg.encoding s.fetchWord = .instr .reset ∧ t.rtc = 0 ∧ t.frac = 0) := by
  obtain ⟨-, rfl⟩ | ⟨-, i, hdecode, hexec⟩ | ⟨-, -, rfl⟩ := step_next_cases h
  · exact .inl ⟨rfl, rfl⟩
  · obtain hsame | ⟨rfl, hclock⟩ := exec_sameClock_or_resets hexec
    · exact .inl hsame
    · exact .inr ⟨hdecode, hclock⟩
  · exact .inl ⟨rfl, rfl⟩

/-- The outcome with a tick after its next state. -/
def tickAfter (delta : ℚ) : Host.Outcome State Fault Refusal → Host.Outcome State Fault Refusal
  | .next t => .next (t.tick delta)
  | .fault f => .fault f
  | .refused r => .refused r

@[simp] theorem engineAction_tick (s : State) (delta : ℚ) : (s.tick delta).engineAction = s.engineAction := rfl

@[simp] theorem ea_tick (s : State) (delta : ℚ) (m : MemRef) : (s.tick delta).ea m = s.ea m := rfl

@[simp] theorem eaAddr_tick (s : State) (delta : ℚ) (x : IndexSelect) (addr : Half) :
    (s.tick delta).eaAddr x addr = s.eaAddr x addr := rfl

@[simp] theorem operand_tick (s : State) (delta : ℚ) (m : MemRef) : (s.tick delta).operand m = s.operand m := rfl

@[simp] theorem returnWord_tick (s : State) (delta : ℚ) : (s.tick delta).returnWord = s.returnWord := rfl

/-! The writes of a handler leave the clock, so they may come before or after a tick. -/

theorem writeEa_tick (s : State) (delta : ℚ) (e : EffAddr) (v : Word) :
    (s.tick delta).writeEa e v = (s.writeEa e v).tick delta := by
  obtain ⟨bank, addr⟩ := e
  cases bank <;> rfl

theorem setIx_tick (s : State) (delta : ℚ) (r : IxReg) (v : Half) : (s.tick delta).setIx r v = (s.setIx r v).tick delta := by
  cases r <;> rfl

theorem ioWrite_tick (s : State) (delta : ℚ) (addr : Half) (v : Word) :
    (s.tick delta).ioWrite addr v = (s.ioWrite addr v).tick delta := by
  simp only [State.ioWrite, State.tick_cfg]
  cases ioKind s.cfg addr <;> rfl

theorem finish_next_tick (s : State) (delta : ℚ) : finish (.next (s.tick delta)) = tickAfter delta (finish (.next s)) := rfl

theorem finish_jump_tick (s : State) (delta : ℚ) (p : Half) (b : Bank) :
    finish (.jump p b (s.tick delta)) = tickAfter delta (finish (.jump p b s)) := rfl

theorem accFromOperand_tick (f : Word → Word → Word) (m : MemRef) (s : State) (delta : ℚ) :
    accFromOperand f m (s.tick delta) = tickAfter delta (accFromOperand f m s) :=
  finish_next_tick (s.setAcc (f s.a (s.operand m))) delta

theorem storeAtEa_tick (f : Word → Word → Word) (m : MemRef) (s : State) (delta : ℚ) :
    storeAtEa f m (s.tick delta) = tickAfter delta (storeAtEa f m s) := by
  simp only [storeAtEa, ea_tick, operand_tick, State.tick_a, writeEa_tick, finish_next_tick]

theorem branchIf_tick (taken : Bool) (m : MemRef) (s : State) (delta : ℚ) :
    branchIf taken m (s.tick delta) = tickAfter delta (branchIf taken m s) := by
  cases taken with
  | true => exact finish_jump_tick s delta _ _
  | false => exact finish_next_tick s delta

theorem exec_bir_tick (m : MemRef) (s : State) (delta : ℚ) : exec (.bir m) (s.tick delta) = tickAfter delta (exec (.bir m) s) := by
  by_cases h1 : rightHalf (s.operand m) = 1
  · rw [exec_bir_one m s h1, exec_bir_one m (s.tick delta) h1]
    rfl
  · by_cases h2 : rightHalf (s.operand m) = 2
    · rw [exec_bir_two m s h2, exec_bir_two m (s.tick delta) h2]
      rfl
    · rw [exec_bir_bad m s h1 h2, exec_bir_bad m (s.tick delta) h1 h2]
      rfl

/-- RESET clears the clock and IOR reads it; any other instruction may come before or after a tick (R121, R237). -/
theorem exec_tick {i : Instr} (hreset : i.op ≠ .reset) (hior : i.op ≠ .ior) (s : State) (delta : ℚ) :
    exec i (s.tick delta) = tickAfter delta (exec i s) := by
  cases i with
  | cad m | add m | dim m | tmu m => exact accFromOperand_tick _ m s delta
  | lst m | fst m | sto m =>
    simp only [exec, execLst, execFst, execSto]
    exact storeAtEa_tick _ m s delta
  | shl => exact finish_next_tick (s.setAcc (shiftLeft s.cfg.shiftScope s.a)) delta
  | shr => exact finish_next_tick (s.setAcc (shiftRight s.cfg.shiftScope s.cfg.shrFill s.a)) delta
  | bpx m => exact branchIf_tick true m s delta
  | blm m => exact branchIf_tick s.accNegative m s delta
  | bze m => exact branchIf_tick s.accZero m s delta
  | jsb m => simp only [exec, execJsb, ea_tick, returnWord_tick, writeEa_tick, finish_jump_tick]
  | bir m => exact exec_bir_tick m s delta
  | ior x addr => exact absurd rfl hior
  | iow x addr => simp only [exec, execIow, eaAddr_tick, State.tick_a, ioWrite_tick, finish_next_tick]
  | lix imm r m => simp only [exec, execLix, ea_tick, operand_tick, setIx_tick, finish_next_tick]
  | cix r => simp only [exec, execCix, setIx_tick, finish_next_tick]
  | halt => exact finish_next_tick s.setHalted delta
  | reset => exact absurd rfl hreset

theorem decode_of_engineAction_run {s : State} {i : Instr} (h : s.engineAction = .run i) :
    decode s.cfg.encoding s.fetchWord = .instr i := by
  unfold State.engineAction at h
  split_ifs at h
  cases hdecode : decode s.cfg.encoding s.fetchWord with
  | instr j => simpa [hdecode] using h
  | noHandler cls op => simp [hdecode] at h

theorem step_tick {s : State} (h : ∀ i, decode s.cfg.encoding s.fetchWord = .instr i → i.op ≠ .reset ∧ i.op ≠ .ior) (delta : ℚ) :
    step (s.tick delta) = tickAfter delta (step s) := by
  simp only [step, engineAction_tick]
  cases haction : s.engineAction with
  | stop | idle => rfl
  | run i =>
    obtain ⟨hreset, hior⟩ := h i (decode_of_engineAction_run haction)
    exact exec_tick hreset hior s delta
  | skip => exact finish_next_tick s delta

/-- Settles O49: RESET alone moves the clock, and a tick commutes with every handler but RESET's and IOR's. -/
theorem stepsDoNotMoveTheClock : Obligations.StepsDoNotMoveTheClock := by
  refine ⟨fun _ _ => step_sameClock_or_resets, fun _ _ hdelta => if_pos hdelta, fun s t delta h hi => ?_⟩
  rw [step_tick hi, h]
  rfl

/-! ### Run -/

theorem runFor_of_stopped (n : Nat) {s : State} (h : s.stopped = true) : runFor n s = (s, 0) := by
  cases n with
  | zero => rfl
  | succ n => exact if_pos h

theorem stopped_iff (s : State) : s.stopped = true ↔ s.halted = true ∨ s.refused = true := by
  simp [State.stopped]

theorem runFor_steps_le (n : Nat) (s : State) : (runFor n s).2 ≤ n := by
  induction n generalizing s with
  | zero => exact le_refl _
  | succ n ih =>
    cases h : s.stopped with
    | true => simp [runFor_of_stopped, h]
    | false =>
      rw [runFor_succ_of_not_stopped n h]
      exact Nat.succ_le_succ (ih _)

/-- A run short of its bound has stopped (R119). -/
theorem stopped_of_runFor_steps_lt {n : Nat} {s : State} (hlt : (runFor n s).2 < n) : (runFor n s).1.stopped = true := by
  induction n generalizing s with
  | zero => exact absurd hlt (Nat.not_lt_zero _)
  | succ n ih =>
    cases h : s.stopped with
    | true => rwa [runFor_of_stopped (n + 1) h]
    | false =>
      rw [runFor_succ_of_not_stopped n h] at hlt ⊢
      exact ih (Nat.lt_of_succ_lt_succ hlt)

/-- A run is its first `m` steps and a run from there. -/
theorem runFor_add (m n : Nat) (s : State) :
    runFor (m + n) s = ((runFor n (runFor m s).1).1, (runFor m s).2 + (runFor n (runFor m s).1).2) := by
  induction m generalizing s with
  | zero => simp [runFor]
  | succ m ih =>
    cases h : s.stopped with
    | true => simp [runFor_of_stopped, h]
    | false =>
      rw [Nat.succ_add, runFor_succ_of_not_stopped _ h, runFor_succ_of_not_stopped m h, ih]
      simp only [Nat.succ_add]

/-- A run leaves what as many of the host's `step()` calls leave (R116, R119). -/
theorem execution_runFor (n : Nat) (s : State) : Execution (List.replicate (runFor n s).2 (.act .step)) s (runFor n s).1 := by
  induction n generalizing s with
  | zero => rfl
  | succ n ih =>
    cases h : s.stopped with
    | true =>
      rw [runFor_of_stopped (n + 1) h]
      rfl
    | false =>
      rw [runFor_succ_of_not_stopped n h]
      exact ⟨stepMarked s, rfl, ih _⟩

theorem runFor_one {s : State} (h : s.stopped = false) : runFor 1 s = (stepMarked s, 1) :=
  runFor_succ_of_not_stopped 0 h

/-- Settles O56: each clause is one on the run's recursion, which stops at a stopped state and else takes a marked step. -/
theorem runExecutesUpToItsBound : Obligations.RunExecutesUpToItsBound :=
  ⟨fun _ => runFor_one, fun _ _ h hstep => by rw [runFor_one h, stepMarked_of_next hstep],
    fun n s h => runFor_of_stopped n ((stopped_iff s).mpr h), fun n s => ⟨runFor_steps_le n s, stopped_of_runFor_steps_lt⟩,
    runFor_add, execution_runFor, fun _ _ => rfl⟩

/-! ### The host's writes and settings -/

theorem memWrite_moves_only_memory (s : State) (bank addr : Nat) (v : Word) :
    { s.memWrite bank addr v with m1 := s.m1, m2 := s.m2 } = s := by
  unfold State.memWrite
  split <;> rfl

theorem hostSetPc_toNat_num (s : State) (p : Half) (b : Bank) : s.hostSetPc p.toNat b.num = some (s.setPc p b) := by
  have hp : p.toNat < 65536 := p.isLt
  cases b <;> simp [State.hostSetPc, Bank.num, bankOfNat, hp]

theorem bankOfNat_eq_none {bank : Nat} (h1 : bank ≠ 1) (h2 : bank ≠ 2) : bankOfNat bank = none := by
  unfold bankOfNat
  split
  · exact absurd rfl h1
  · exact absurd rfl h2
  · rfl

/-- The host cannot set P or PB to a value they do not hold (D30). -/
theorem hostSetPc_eq_none (s : State) {p bank : Nat} (h : 65536 ≤ p ∨ (bank ≠ 1 ∧ bank ≠ 2)) : s.hostSetPc p bank = none := by
  obtain hp | ⟨h1, h2⟩ := h
  · unfold State.hostSetPc
    split
    · exact if_neg hp.not_gt
    · rfl
  · simp [State.hostSetPc, bankOfNat_eq_none h1 h2]

/-- Settles O59: a write moves memory alone, `set_pc` acts on the legal values and no others, and the inspection shows the fields. -/
theorem hostTransactionsAct : Obligations.HostTransactionsAct :=
  ⟨fun s bank addr _ => ⟨rfl, memWrite_moves_only_memory s bank addr _⟩, hostSetPc_toNat_num, fun s _ _ => hostSetPc_eq_none s,
    fun _ _ hdelta => if_neg hdelta.not_ge, fun _ _ _ => rfl,
    fun _ => ⟨rfl, rfl, rfl, rfl, rfl, rfl, rfl, rfl, rfl, rfl, rfl, rfl⟩⟩

end Sys2Proof.Proofs
end

section
/-! PROOFS. The arithmetic instructions (41_arithmetic.md R140 to R145): CAD, ADD and DIM, the corners of TMU's lane, and that sums
and differences wrap where products saturate. -/

namespace Sys2Proof.Proofs

open Sys2Proof Sys2Proof.Machine

/-! ### CAD, ADD and DIM -/

/-- Settles O20: CAD writes the operand to `A` and nothing else. -/
theorem cadLoadsTheOperand : Obligations.CadLoadsTheOperand := fun m s =>
  ⟨_, exec_cad m s, rfl, setAcc_thenNext_frame s _⟩

/-- Settles O21: each half of the lane sum is the 16-bit sum of the halves. -/
theorem addWrapsInEachHalf : Obligations.AddWrapsInEachHalf := fun m s =>
  ⟨_, exec_add m s, (leftHalf_lanes _ _ _).trans (trunc16_add _ _), (rightHalf_lanes _ _ _).trans (trunc16_add _ _),
    setAcc_thenNext_frame s _⟩

/-- Settles O22: each half of the lane difference is the 16-bit difference of the halves. -/
theorem dimSubtractsInEachHalf : Obligations.DimSubtractsInEachHalf := fun m s =>
  ⟨_, exec_dim m s, (leftHalf_lanes _ _ _).trans (trunc16_sub _ _), (rightHalf_lanes _ _ _).trans (trunc16_sub _ _),
    setAcc_thenNext_frame s _⟩

/-! ### The corners of TMU -/

/-- A product that 32768 divides needs no rounding, so the rule does not matter (R13, R144). -/
theorem tmul_of_mul_eq (rule : FracRound) {a m n : Int} (h : a * m = n * 32768) : tmul rule a m = clamp16 n := by
  rw [tmul, h, roundQuotient_mul rule n (by norm_num)]

theorem tmul_comm (rule : FracRound) (a m : Int) : tmul rule a m = tmul rule m a := by
  rw [tmul, tmul, Int.mul_comm]

theorem abs_s16_le (h : Half) : |s16 h| ≤ 32768 :=
  abs_le.mpr ⟨s16_lower h, (s16_upper h).trans (by norm_num)⟩

theorem abs_s16_le_of_ne {h : Half} (hne : s16 h ≠ -32768) : |s16 h| ≤ 32767 := by
  have := s16_lower h
  exact abs_le.mpr ⟨by omega, s16_upper h⟩

/-- Only (-1) * (-1) has a product of 1: one factor of any other pair is at most 32767 in size. -/
theorem abs_s16_mul_le {a m : Half} (h : ¬ (s16 a = -32768 ∧ s16 m = -32768)) : |s16 a * s16 m| ≤ 32767 * 32768 := by
  rw [abs_mul]
  obtain ha | hm := not_and_or.mp h
  · exact mul_le_mul (abs_s16_le_of_ne ha) (abs_s16_le m) (abs_nonneg _) (by norm_num)
  · rw [mul_comm]
    exact mul_le_mul (abs_s16_le_of_ne hm) (abs_s16_le a) (abs_nonneg _) (by norm_num)

/-- A product within 32767 in size once divided is rounded and not clamped, by any rule. -/
theorem tmul_of_abs_mul_le (rule : FracRound) {a m : Int} (h : |a * m| ≤ 32767 * 32768) :
    tmul rule a m = roundQuotient rule (a * m) 32768 := by
  obtain ⟨hlower, hupper⟩ := abs_le.mp h
  obtain ⟨hfloor, hnext⟩ := roundQuotient_bounds rule (a * m) (show (0 : Int) < 32768 by norm_num)
  exact clamp16_of_range (by omega) (by omega)

/-- Settles O24: -1 squared and the products of 0 are whole and need no rounding, and any other product of two halves is in range. -/
theorem tmuLaneCorners : Obligations.TmuLaneCorners :=
  ⟨fun rule => tmul_of_mul_eq rule (n := 32768) (by norm_num),
    fun rule n => ⟨tmul_of_mul_eq rule (n := 0) (by ring), tmul_of_mul_eq rule (n := 0) (by ring)⟩,
    tmul_comm, fun _ _ h => tmul_of_abs_mul_le .truncate (abs_s16_mul_le h)⟩

/-! ### Wrapping and saturating -/

/-- A half of a lane result wraps: it is the integer modulo 65536 in the signed range (R8, R145). -/
theorem s16_trunc16_eq_bmod (n : Int) : s16 (trunc16 n) = Int.bmod n 65536 := BitVec.toInt_ofInt n

theorem split_lanes_eq_bmod (op : Int → Int → Int) (a m : Word) :
    split (lanes op a m) = (Int.bmod (op (split a).1 (split m).1) 65536, Int.bmod (op (split a).2 (split m).2) 65536) := by
  rw [lanes, split_join, s16_trunc16_eq_bmod, s16_trunc16_eq_bmod]
  rfl

theorem clamp16_eq_max_min (n : Int) : clamp16 n = max (-32768) (min 32767 n) := by
  unfold clamp16
  split_ifs <;> omega

theorem tmul_eq_max_min (rule : FracRound) (a m : Int) :
    tmul rule a m = max (-32768) (min 32767 (roundQuotient rule (a * m) 32768)) := clamp16_eq_max_min _

/-- Settles O25: a lane narrows its result modulo 65536, and TMU's lane has clamped its own before. -/
theorem wrapAndSaturateAreKeptApart : Obligations.WrapAndSaturateAreKeptApart := by
  intro m s
  refine ⟨_, _, _, exec_add m s, exec_dim m s, exec_tmu m s, split_lanes_eq_bmod _ _ _, split_lanes_eq_bmod _ _ _, ?_⟩
  simp only [← tmul_eq_max_min]
  exact split_lanes_tmul s.cfg.fracRound s.a (s.operand m)

end Sys2Proof.Proofs
end

section
/-! PROOFS. The stores (42_store.md R160 to R163): the word they write, and that they write no other. -/

namespace Sys2Proof.Proofs

open Sys2Proof Sys2Proof.Machine

/-- What a step that writes one word of memory, sets P and PB and counts leaves as it was (R113, R114, R160). -/
theorem writeEa_setPc_count_frame (s : State) (e : EffAddr) (v : Word) (p : Half) (b : Bank) :
    Counted s ((s.writeEa e v).setPc p b).count ∧ ((s.writeEa e v).setPc p b).count.a = s.a ∧
    SameIndex s ((s.writeEa e v).setPc p b).count none ∧ SameClock s ((s.writeEa e v).setPc p b).count ∧
    SameDevice s ((s.writeEa e v).setPc p b).count ∧ SameMode s ((s.writeEa e v).setPc p b).count := by
  simp [Counted, SameIndex, SameClock, SameDevice, SameMode]

/-- Moving on and counting keep what was stored. -/
theorem storedAt_writeEa_setPc_count (s : State) (e : EffAddr) (v : Word) (p : Half) (b : Bank) :
    StoredAt s ((s.writeEa e v).setPc p b).count e v :=
  (s.storedAt_writeEa e v).congr rfl rfl

theorem advanced_writeEa_thenNext (s : State) (e : EffAddr) (v : Word) : Advanced s (s.writeEa e v).thenNext := by
  simp [Advanced]

/-- What an instruction that stores `v` at `e` and ends with NEXT does, and all it leaves (R113, R114, R160). -/
theorem writeEa_thenNext_stores (s : State) (e : EffAddr) (v : Word) :
    StoredAt s (s.writeEa e v).thenNext e v ∧ Advanced s (s.writeEa e v).thenNext ∧ Counted s (s.writeEa e v).thenNext ∧
    (s.writeEa e v).thenNext.a = s.a ∧ SameIndex s (s.writeEa e v).thenNext none ∧ SameClock s (s.writeEa e v).thenNext ∧
    SameDevice s (s.writeEa e v).thenNext ∧ SameMode s (s.writeEa e v).thenNext :=
  ⟨storedAt_writeEa_setPc_count s e v _ _, advanced_writeEa_thenNext s e v, writeEa_setPc_count_frame s e v _ _⟩

/-- Settles O26: each store is one `writeEa` at EA, of the word its halves make, and a NEXT. -/
theorem storesWriteOnlyTheWordAtEa : Obligations.StoresWriteOnlyTheWordAtEa := fun m s =>
  ⟨⟨_, exec_lst m s, writeEa_thenNext_stores s _ _⟩, ⟨_, exec_fst m s, writeEa_thenNext_stores s _ _⟩,
    ⟨_, exec_sto m s, writeEa_thenNext_stores s _ _⟩⟩

end Sys2Proof.Proofs
end

section
/-! PROOFS. The shifts (43_shift.md R170 to R172): by one place, a doubling or a halving of the number is the shift of its bits. -/

namespace Sys2Proof.Proofs

open Sys2Proof Sys2Proof.Machine

/-! ### One place, at any width -/

theorem ofInt_toNat_mul_two {w : Nat} (x : BitVec w) : BitVec.ofInt w ((x.toNat : Int) * 2) = x <<< 1 :=
  calc BitVec.ofInt w ((x.toNat : Int) * 2) = BitVec.ofNat w (x.toNat * 2) := BitVec.ofInt_natCast w (x.toNat * 2)
    _ = BitVec.ofNat w (x.toNat <<< 1) := by rw [Nat.shiftLeft_eq, pow_one]
    _ = x <<< 1 := rfl

/-- Halving the unsigned number shifts a 0 in at the top (R172). -/
theorem ofInt_toNat_div_two {w : Nat} (x : BitVec w) : BitVec.ofInt w ((x.toNat : Int) / 2) = x >>> 1 :=
  calc BitVec.ofInt w ((x.toNat : Int) / 2) = BitVec.ofNat w (x.toNat / 2) := BitVec.ofInt_natCast w (x.toNat / 2)
    _ = BitVec.ofNat w (x >>> 1).toNat := by rw [BitVec.toNat_ushiftRight, Nat.shiftRight_eq_div_pow, pow_one]
    _ = x >>> 1 := by rw [BitVec.ofNat_toNat, BitVec.setWidth_eq]

/-- Halving the signed number toward minus infinity repeats the sign bit (R172). -/
theorem ofInt_toInt_div_two {w : Nat} (x : BitVec w) : BitVec.ofInt w (x.toInt / 2) = x.sshiftRight 1 :=
  calc BitVec.ofInt w (x.toInt / 2) = BitVec.ofInt w (x.toInt >>> (1 : Nat)) := by
        rw [Int.shiftRight_eq_div_pow, Nat.pow_one, Nat.cast_ofNat]
    _ = x.sshiftRight 1 := rfl

/-! ### SHL -/

theorem shiftLeft_perHalf (a : Word) : shiftLeft .perHalf a = (leftHalf a <<< 1) ++ (rightHalf a <<< 1) :=
  congrArg₂ (· ++ ·) (ofInt_toNat_mul_two _) (ofInt_toNat_mul_two _)

theorem shiftLeft_wholeWord (a : Word) : shiftLeft .wholeWord a = a <<< 1 := ofInt_toNat_mul_two a

/-- Settles O28: under either scope the doubled number is the shifted bits; SHL writes them to `A` and ends with NEXT. -/
theorem shlShiftsByOnePlace : Obligations.ShlShiftsByOnePlace := by
  intro s
  refine ⟨_, exec_shl s, ?_, setAcc_thenNext_frame s _⟩
  cases s.cfg.shiftScope with
  | perHalf => exact shiftLeft_perHalf s.a
  | wholeWord => exact shiftLeft_wholeWord s.a

/-! ### SHR -/

theorem shiftRight_perHalf_arithmetic (a : Word) :
    shiftRight .perHalf .arithmetic a = (leftHalf a).sshiftRight 1 ++ (rightHalf a).sshiftRight 1 :=
  congrArg₂ (· ++ ·) (ofInt_toInt_div_two _) (ofInt_toInt_div_two _)

theorem shiftRight_perHalf_logical (a : Word) :
    shiftRight .perHalf .logical a = (leftHalf a >>> 1) ++ (rightHalf a >>> 1) :=
  congrArg₂ (· ++ ·) (ofInt_toNat_div_two _) (ofInt_toNat_div_two _)

theorem shiftRight_wholeWord_arithmetic (a : Word) : shiftRight .wholeWord .arithmetic a = a.sshiftRight 1 :=
  ofInt_toInt_div_two a

theorem shiftRight_wholeWord_logical (a : Word) : shiftRight .wholeWord .logical a = a >>> 1 := ofInt_toNat_div_two a

/-- Settles O29: under either scope and either fill the halved number is the shifted bits; SHR writes them to `A` and ends with NEXT. -/
theorem shrShiftsByOnePlace : Obligations.ShrShiftsByOnePlace := by
  intro s
  refine ⟨_, exec_shr s, ?_, setAcc_thenNext_frame s _⟩
  cases s.cfg.shiftScope with
  | perHalf =>
    cases s.cfg.shrFill with
    | arithmetic => exact shiftRight_perHalf_arithmetic s.a
    | logical => exact shiftRight_perHalf_logical s.a
  | wholeWord =>
    cases s.cfg.shrFill with
    | arithmetic => exact shiftRight_wholeWord_arithmetic s.a
    | logical => exact shiftRight_wholeWord_logical s.a

end Sys2Proof.Proofs
end

section
/-! PROOFS. Control transfer (44_control_transfer.md R180 to R192): BPX and the branch to itself (R181, R285), and the call and the
return through a slot in memory: the word that JSB writes and BIR reads (R186, R190, R192). -/

namespace Sys2Proof.Proofs

open Sys2Proof Sys2Proof.Machine

/-! ### BPX -/

/-- Settles O30: BPX moves P and PB to EA, and all else but the counters stays. -/
theorem bpxGoesToEa : Obligations.BpxGoesToEa := fun m s =>
  ⟨_, exec_bpx m s, ⟨rfl, rfl⟩, setPc_count_frame s _ _⟩

/-- A state that will run a BPX to where it stands (R285). -/
structure SelfBranching (m : MemRef) (s : State) : Prop where
  ready : Ready s
  fetches : decode s.cfg.encoding s.fetchWord = .instr (.bpx m)
  to_itself : s.ea m = ⟨s.pb, s.p⟩

/-- A step of a self branch only counts (R114, R181). -/
theorem SelfBranching.stepMarked_eq {m : MemRef} {s : State} (h : SelfBranching m s) : stepMarked s = s.count := by
  refine stepMarked_of_next ?_
  rw [step_of_instr h.ready h.fetches, exec_bpx, h.to_itself]
  rfl

theorem SelfBranching.count {m : MemRef} {s : State} (h : SelfBranching m s) : SelfBranching m s.count where
  ready := h.ready
  fetches := h.fetches
  to_itself := h.to_itself

theorem SelfBranching.runFor {m : MemRef} {s : State} (h : SelfBranching m s) (n : Nat) : SelfBranching m (runFor n s).1 :=
  runFor_keeps (SelfBranching m) (fun _ hs => hs.stepMarked_eq ▸ hs.count) n s h

theorem not_stopped_of_ready {s : State} (h : Ready s) : s.stopped = false := by
  simp [State.stopped, h.1, h.2]

/-- Settles O57: every state of the run branches to itself again, so none is stopped. -/
theorem selfBranchNeverEnds : Obligations.SelfBranchNeverEnds := by
  rintro s m hready hfetch hself t n ⟨hrun, hstopped⟩
  have hbranching := SelfBranching.runFor ⟨hready, hfetch, hself⟩ n
  rw [hrun] at hbranching
  simp [not_stopped_of_ready hbranching.ready] at hstopped

/-! ### JSB -/

/-- The return word is the address after the call, and the number of its bank (R186, D6). -/
theorem returnWord_eq_append (s : State) : s.returnWord = (s.p + 1) ++ BitVec.ofNat 16 s.pb.num :=
  congrArg₂ (· ++ ·) (trunc16_u16 (s.p + 1)) (BitVec.ofInt_natCast 16 s.pb.num)

/-- Settles O33: JSB is one `writeEa` at EA, of the return word, and a jump to the word after it. -/
theorem jsbStoresTheReturnWord : Obligations.JsbStoresTheReturnWord := by
  intro m s
  rw [← returnWord_eq_append]
  exact ⟨_, exec_jsb m s, storedAt_writeEa_setPc_count s _ _ _ _, ⟨rfl, rfl⟩, writeEa_setPc_count_frame s _ _ _ _⟩

/-! ### BIR -/

/-- BIR of a word whose right half names a bank completes, at its left half in that bank (R190). -/
theorem exec_bir_of_bank {m : MemRef} {s : State} {b : Bank} (h : rightHalf (s.operand m) = BitVec.ofNat 16 b.num) :
    exec (.bir m) s = .next (s.setPc (leftHalf (s.operand m)) b).count := by
  cases b with
  | one => exact exec_bir_one m s h
  | two => exact exec_bir_two m s h

/-- Settles O34: either bank's number moves P and PB to the word's halves, and all else but the counters stays. -/
theorem birGoesToTheReturnWord : Obligations.BirGoesToTheReturnWord := fun _ s _ h =>
  ⟨_, exec_bir_of_bank h, ⟨rfl, rfl⟩, setPc_count_frame s _ _⟩

/-- Settles O35: the slot holds the call's return word, whose halves BIR takes. -/
theorem returnLandsAfterTheCall : Obligations.ReturnLandsAfterTheCall := by
  intro call ret s t u hcall hslot hstands
  obtain ⟨t', hcall', ⟨hstored, -⟩, -⟩ := jsbStoresTheReturnWord call s
  obtain rfl : t' = t := Host.Outcome.next.inj (hcall'.symm.trans hcall)
  have hword : u.operand ret = (s.p + 1) ++ BitVec.ofNat 16 s.pb.num := by
    rw [State.operand, hslot, hstands, hstored]
  have hbank : rightHalf (u.operand ret) = BitVec.ofNat 16 s.pb.num := by rw [hword, rightHalf_append]
  have hoffset : leftHalf (u.operand ret) = s.p + 1 := by rw [hword, leftHalf_append]
  exact ⟨_, exec_bir_of_bank hbank, hoffset, rfl⟩

end Sys2Proof.Proofs
end

section
/-! PROOFS. I/O (45_io.md R200, R202): what the port answers at each kind of address (R240 to R243), and all that stays. -/

namespace Sys2Proof.Proofs

open Sys2Proof Sys2Proof.Machine

/-! ### The kinds of an I/O address -/

theorem ioKind_rtc {c : Config} {addr : Half} (h : addr = c.rtcIoAddr) : ioKind c addr = .rtc := if_pos h

theorem ioKind_device {c : Config} {addr : Half} (hrtc : addr ≠ c.rtcIoAddr) (hdev : addr ∈ c.deviceAddrs) :
    ioKind c addr = .device := (if_neg hrtc).trans (if_pos hdev)

theorem ioKind_unmapped {c : Config} {addr : Half} (hrtc : addr ≠ c.rtcIoAddr) (hdev : addr ∉ c.deviceAddrs) :
    ioKind c addr = .unmapped := (if_neg hrtc).trans (if_neg hdev)

theorem ioKind_eq_device_iff (c : Config) (addr : Half) :
    ioKind c addr = .device ↔ addr ≠ c.rtcIoAddr ∧ addr ∈ c.deviceAddrs := by
  by_cases hrtc : addr = c.rtcIoAddr
  · rw [ioKind_rtc hrtc]
    simp [hrtc]
  · by_cases hdev : addr ∈ c.deviceAddrs
    · simp [ioKind_device hrtc hdev, hrtc, hdev]
    · simp [ioKind_unmapped hrtc hdev, hdev]

/-! ### IOR -/

/-- The clock's word: RTC, read as unsigned, in the left half (R200, R241). -/
theorem join_u16_zero (h : Half) : join (u16 h) 0 = h ++ (0 : Half) := congrArg (· ++ (0 : Half)) (trunc16_u16 h)

/-- `IORead` by the kind of the address: the word that it answers and the draws after it (R240, R241, R243). -/
theorem ioRead_cases (s : State) (addr : Half) :
    if addr = s.cfg.rtcIoAddr then s.ioValue addr = s.rtc ++ (0 : Half) ∧ (s.afterIoRead addr).draws = s.draws
    else if addr ∈ s.cfg.deviceAddrs then
      s.ioValue addr = Config.deviceDraw s.draws ∧ (s.afterIoRead addr).draws = s.draws + 1
    else s.ioValue addr = 0 ∧ (s.afterIoRead addr).draws = s.draws := by
  split_ifs with hrtc hdev
  · simp [State.ioValue, State.afterIoRead_draws, ioKind_rtc hrtc, join_u16_zero]
  · simp [State.ioValue, State.afterIoRead_draws, ioKind_device hrtc hdev]
  · simp [State.ioValue, State.afterIoRead_draws, ioKind_unmapped hrtc hdev]

/-- What IOR leaves, but for `A` and the draws (R113, R114, R200). -/
theorem afterIoRead_setAcc_thenNext_frame (s : State) (addr : Half) (v : Word) :
    ((s.afterIoRead addr).setAcc v).thenNext.outputs = s.outputs ∧ Advanced s ((s.afterIoRead addr).setAcc v).thenNext ∧
    Counted s ((s.afterIoRead addr).setAcc v).thenNext ∧ SameIndex s ((s.afterIoRead addr).setAcc v).thenNext none ∧
    SameMemory s ((s.afterIoRead addr).setAcc v).thenNext ∧ SameClock s ((s.afterIoRead addr).setAcc v).thenNext ∧
    SameMode s ((s.afterIoRead addr).setAcc v).thenNext := by
  simp [Advanced, Counted, SameIndex, SameMemory, SameClock, SameMode]

/-- Settles O36: IOR is `IORead` at EA into `A`, and a NEXT. -/
theorem iorReadsThePort : Obligations.IorReadsThePort := fun x addr s =>
  ⟨_, exec_ior x addr s, ioRead_cases s (s.eaAddr x addr), afterIoRead_setAcc_thenNext_frame s _ _⟩

/-! ### IOW -/

/-- `IOWrite` is an event at a device address, and nothing at any other (R242, R243, D21). -/
theorem ioWrite_outputs_cases (s : State) (addr : Half) (v : Word) :
    if addr ≠ s.cfg.rtcIoAddr ∧ addr ∈ s.cfg.deviceAddrs then (s.ioWrite addr v).outputs = s.outputs ++ [(addr, v)]
    else (s.ioWrite addr v).outputs = s.outputs := by
  split_ifs with hdevice
  · exact (s.ioWrite_outputs addr v).trans (if_pos ((ioKind_eq_device_iff s.cfg addr).2 hdevice))
  · exact (s.ioWrite_outputs addr v).trans (if_neg (mt (ioKind_eq_device_iff s.cfg addr).1 hdevice))

/-- What IOW leaves, but for the events (R113, R114, R202). -/
theorem ioWrite_thenNext_frame (s : State) (addr : Half) (v : Word) :
    (s.ioWrite addr v).thenNext.draws = s.draws ∧ (s.ioWrite addr v).thenNext.a = s.a ∧
    Advanced s (s.ioWrite addr v).thenNext ∧ Counted s (s.ioWrite addr v).thenNext ∧
    SameIndex s (s.ioWrite addr v).thenNext none ∧ SameMemory s (s.ioWrite addr v).thenNext ∧
    SameClock s (s.ioWrite addr v).thenNext ∧ SameMode s (s.ioWrite addr v).thenNext := by
  simp [Advanced, Counted, SameIndex, SameMemory, SameClock, SameMode]

/-- Settles O37: IOW is `IOWrite` of the whole of `A` at EA, and a NEXT. -/
theorem iowEmitsAnEvent : Obligations.IowEmitsAnEvent := fun x addr s =>
  ⟨_, exec_iow x addr s, ioWrite_outputs_cases s (s.eaAddr x addr) s.a, ioWrite_thenNext_frame s _ _⟩

end Sys2Proof.Proofs
end

section
/-! PROOFS. Index registers (46_index.md R212): CIX clears its target. -/

namespace Sys2Proof.Proofs

open Sys2Proof Sys2Proof.Machine

/-- Settles O39: CIX is a write of 0 to the target and a NEXT, so what such a write leaves is all that stays. -/
theorem cixClearsTheTarget : Obligations.CixClearsTheTarget := fun r s =>
  ⟨_, exec_cix r s, setIx_thenNext_frame s r 0⟩

end Sys2Proof.Proofs
end

section
/-! PROOFS. Machine control, exceptions and reset (47_machine_control.md R222, 60_exceptions.md R235, R236, R242, R243,
70_reset_and_hazards.md R270 to R273): what RESET and power-on leave, what the output history grows by, and that ticks add up. -/

namespace Sys2Proof.Proofs

open Sys2Proof Sys2Proof.Machine

/-! ### Reset and power-on -/

/-- The index registers after Reset (R270). -/
@[simp] theorem getIx_resetTransition (s : State) (r : IxReg) : s.resetTransition.getIx r = 0 := by
  cases r <;> rfl

/-- Settles O42: RESET is the Reset transition alone, without a NEXT, and each field is as the transition leaves it. -/
theorem resetInstructionClearsTheRegisters : Obligations.ResetInstructionClearsTheRegisters := fun s =>
  ⟨s.resetTransition, exec_reset s, rfl, by simp [SameMemory, SameDevice]⟩

/-- Settles O44: both banks are empty, and Reset finds nothing to change. -/
theorem powerOnState : Obligations.PowerOnState :=
  ⟨State.memRead_reset, rfl, ⟨rfl, rfl⟩, rfl, rfl⟩

/-! ### The output history -/

/-- Only IOW adds to the history, one event at a device address (R242, R243). -/
theorem exec_sameOutputs_or_emits {i : Instr} {s t : State} (h : exec i s = .next t) :
    t.outputs = s.outputs ∨ ∃ x addr, i = .iow x addr ∧ ioKind s.cfg (s.eaAddr x addr) = .device ∧
      t.outputs = s.outputs ++ [(s.eaAddr x addr, s.a)] := by
  cases exec_effect h with
  | writesIo x addr =>
    have houtputs := s.ioWrite_outputs (s.eaAddr x addr) s.a
    by_cases hdevice : ioKind s.cfg (s.eaAddr x addr) = .device
    · exact .inr ⟨x, addr, rfl, hdevice, houtputs.trans (if_pos hdevice)⟩
    · exact .inl (houtputs.trans (if_neg hdevice))
  | _ => exact .inl (by simp)

/-- Settles O52: an idle step and a skipped word leave the history, and so does every instruction but an IOW to a device. -/
theorem outputsGrowOnlyByIow : Obligations.OutputsGrowOnlyByIow := by
  intro s t h
  obtain ⟨-, rfl⟩ | ⟨-, i, hdecode, hexec⟩ | ⟨-, -, rfl⟩ := step_next_cases h
  · exact .inl rfl
  · obtain hsame | ⟨x, addr, rfl, hevent⟩ := exec_sameOutputs_or_emits hexec
    · exact .inl hsame
    · exact .inr ⟨x, addr, hdecode, hevent⟩
  · exact .inl rfl

/-! ### Ticks in sequence -/

/-- A state that is `s` but for the clock, and has the clock of the tick, is the tick's result (R235). -/
theorem tick_eq_of_sameClock {s t : State} {delta : ℚ} (hother : { t with rtc := s.rtc, frac := s.frac } = s)
    (hclock : SameClock t (s.tick delta)) : s.tick delta = t := by
  obtain ⟨hrtc, hfrac⟩ := hclock
  calc s.tick delta = { s with rtc := (s.tick delta).rtc, frac := (s.tick delta).frac } := rfl
    _ = t := by rw [hrtc, hfrac, ← hother]

/-- With less than one whole tick held, no time changes nothing (R33, R235). -/
theorem tick_zero {s : State} (hlo : 0 ≤ s.frac) (hhi : s.frac < 1 / 32) : s.tick 0 = s := by
  have hwhole : s.wholeTicks 0 = 0 := Int.floor_eq_zero_iff.mpr ⟨by linarith, by linarith⟩
  exact tick_eq_of_sameClock rfl (by simp [SameClock, State.tick, hwhole])

/-- The ticks counted in two parts are those of the whole time: the remainder between them loses nothing (R236). -/
theorem wholeTicks_tick (s : State) (d e : ℚ) : s.wholeTicks d + (s.tick d).wholeTicks e = s.wholeTicks (d + e) := by
  have hheld : ((s.tick d).frac + e) * 32 = (s.frac + (d + e)) * 32 - (s.wholeTicks d : ℚ) := by
    linarith [wholeTicks_add_frac s d]
  calc s.wholeTicks d + (s.tick d).wholeTicks e
      = s.wholeTicks d + ⌊(s.frac + (d + e)) * 32 - (s.wholeTicks d : ℚ)⌋ := by rw [← hheld]; rfl
    _ = s.wholeTicks d + (s.wholeTicks (d + e) - s.wholeTicks d) := by rw [Int.floor_sub_intCast]; rfl
    _ = s.wholeTicks (d + e) := add_sub_cancel _ _

/-- Narrowing between two additions changes nothing modulo 65536 (R8, R32). -/
theorem trunc16_u16_trunc16_add (m n : Int) : trunc16 (u16 (trunc16 m) + n) = trunc16 (m + n) := by
  calc trunc16 (u16 (trunc16 m) + n) = trunc16 (u16 (trunc16 m)) + trunc16 n := BitVec.ofInt_add _ _
    _ = trunc16 m + trunc16 n := by rw [trunc16_u16]
    _ = trunc16 (m + n) := (BitVec.ofInt_add _ _).symm

/-- Two ticks are one of their sum (R236). -/
theorem tick_tick (s : State) (d e : ℚ) : (s.tick d).tick e = s.tick (d + e) := by
  have hwhole := wholeTicks_tick s d e
  refine (tick_eq_of_sameClock rfl ⟨?_, ?_⟩).symm
  · calc (s.tick (d + e)).rtc = trunc16 (u16 s.rtc + s.wholeTicks d + (s.tick d).wholeTicks e) := by
          rw [add_assoc, hwhole]; rfl
      _ = ((s.tick d).tick e).rtc := (trunc16_u16_trunc16_add _ _).symm
  · have hcast : (s.wholeTicks d : ℚ) + (s.tick d).wholeTicks e = s.wholeTicks (d + e) := by exact_mod_cast hwhole
    linarith [wholeTicks_add_frac s (d + e), wholeTicks_add_frac s d, wholeTicks_add_frac (s.tick d) e]

/-- Settles O55, by induction on the sequence: a tick leaves less than one whole tick, and adds up with those that follow. -/
theorem ticksAddUp : Obligations.TicksAddUp := by
  intro s deltas hlo hhi hdeltas
  induction deltas generalizing s with
  | nil => exact (tick_zero hlo hhi).symm
  | cons d deltas ih =>
    calc (d :: deltas).foldl State.tick s = (s.tick d).tick deltas.sum :=
          ih _ (tick_frac_nonneg s d) (tick_frac_lt s d) fun e he => hdeltas e (List.mem_cons_of_mem d he)
      _ = s.tick (d :: deltas).sum := by rw [tick_tick, List.sum_cons]

end Sys2Proof.Proofs
end
